-- ==== Sys2Proof/Word.lean ====
section
/-! DEFINITION. The words, bytes, colors and bounded indices of the AC emblem codec block (00_scope.md R6, R7, R12). -/

namespace Sys2Proof

/-- A byte: an element of the save buffer or of the raster, or one color channel (R12, R34, R35). -/
abbrev Byte := BitVec 8

/-- A 32-bit word: a host register (R6, R23), operand A of a command (R80), a packed color (R120). -/
abbrev Word := BitVec 32

/-- A 64-bit command word `CMD_HI || CMD_A` (R6, R80). -/
abbrev CommandWord := BitVec 64

/-- A logical pixel index, or an offset inside the index block: a number in [0,16384) (R57, R100). -/
abbrev PixelIx := Fin 16384

/-- A logical or physical palette slot: a number in [0,256) (R54, R130). -/
abbrev Slot := Fin 256

/-- A color: four byte channels in the order red, green, blue, alpha. Two colors are equal exactly when all four
channels are (R12). -/
structure Color where
  r : Byte
  g : Byte
  b : Byte
  a : Byte
deriving DecidableEq, Repr

end Sys2Proof
end

