-- ==== Sys2Proof/Syntax.lean ====
section
/-! DEFINITION. The block's commands as abstract syntax: one constructor per row of spec/opcode_table.json (R83). -/

namespace Sys2Proof

/-- The eight commands of R83 with the operands R81 assembles. The types carry the operand widths of R80 (OPA 32 bits,
OPB 24 bits) and of FMT-RGBA's four byte lanes, so every term of this type is a legal command. -/
inductive Instr where
  /-- MAP_PIXEL: logical index `i` = OPA, block base `b` = OPB (R104). -/
  | mapPixel (i : Word) (b : BitVec 24)
  /-- UNMAP_PIXEL: physical offset `o` = OPA, block base `b` = OPB (R105). -/
  | unmapPixel (o : Word) (b : BitVec 24)
  /-- PACK_COLOR: the four byte lanes of OPA (R124). -/
  | packColor (r g b a : Byte)
  /-- UNPACK_COLOR: packed color `w` = OPA (R125). -/
  | unpackColor (w : Word)
  /-- MAP_SLOT: logical slot `s` = OPA (R133). -/
  | mapSlot (s : Word)
  /-- UNMAP_SLOT: physical slot `t` = OPA (R134). -/
  | unmapSlot (t : Word)
  /-- EXTRACT: no operand (R155). -/
  | extract
  /-- INJECT: no operand (R175). -/
  | inject
deriving DecidableEq, Repr

end Sys2Proof
end

