-- ==== Sys2Proof/Decode.lean ====
section
/-! DEFINITION. Decoding of the 64-bit command word, total, refusing by name (R80 to R86), and the encoder. -/

namespace Sys2Proof

/-- Why a command word is illegal (R86). -/
inductive DecodeError where
  /-- The OPCODE is 0x00, 0x07 to 0x0F or 0x12 to 0xFF. -/
  | reservedOpcode (opcode : BitVec 8)
  /-- The OPCODE is defined and a field its format marks "must be 0" is not 0. -/
  | nonzeroField (opcode : BitVec 8)
deriving DecidableEq, Repr

/-- OPCODE, W[63:56] (R80). -/
def opcodeOf (w : CommandWord) : BitVec 8 := w.extractLsb' 56 8

/-- OPB, W[55:32] (R80). -/
def opbOf (w : CommandWord) : BitVec 24 := w.extractLsb' 32 24

/-- OPA, W[31:0] (R80). -/
def opaOf (w : CommandWord) : Word := w.extractLsb' 0 32

/-- FMT-RGBA's red lane, OPA[7:0] (R81). -/
def laneR (opa : Word) : Byte := opa.extractLsb' 0 8

/-- FMT-RGBA's green lane, OPA[15:8] (R81). -/
def laneG (opa : Word) : Byte := opa.extractLsb' 8 8

/-- FMT-RGBA's blue lane, OPA[23:16] (R81). -/
def laneB (opa : Word) : Byte := opa.extractLsb' 16 8

/-- FMT-RGBA's alpha lane, OPA[31:24] (R81). -/
def laneA (opa : Word) : Byte := opa.extractLsb' 24 8

/-- The command an OPCODE with its operand fields stands for (R82, R83), or why there is none (R86). -/
def decodeFields (op : BitVec 8) (opb : BitVec 24) (opa : Word) : Except DecodeError Instr :=
  match op.toNat with
  | 0x01 => .ok (.mapPixel opa opb)
  | 0x02 => .ok (.unmapPixel opa opb)
  | 0x03 => if opb = 0 then .ok (.packColor (laneR opa) (laneG opa) (laneB opa) (laneA opa)) else .error (.nonzeroField op)
  | 0x04 => if opb = 0 then .ok (.unpackColor opa) else .error (.nonzeroField op)
  | 0x05 => if opb = 0 then .ok (.mapSlot opa) else .error (.nonzeroField op)
  | 0x06 => if opb = 0 then .ok (.unmapSlot opa) else .error (.nonzeroField op)
  | 0x10 => if opb = 0 ∧ opa = 0 then .ok .extract else .error (.nonzeroField op)
  | 0x11 => if opb = 0 ∧ opa = 0 then .ok .inject else .error (.nonzeroField op)
  | _ => .error (.reservedOpcode op)

/-- Decoding, total on all 2^64 words: exactly one command, or illegal (R85). -/
def decode (w : CommandWord) : Except DecodeError Instr := decodeFields (opcodeOf w) (opbOf w) (opaOf w)

/-- The command word a launch runs: `CMD_HI || CMD_A`, CMD_HI the upper half (R26, R80). -/
def commandWord (cmdHi cmdA : Word) : CommandWord := cmdHi ++ cmdA

/-- What CMD_HI holds to launch a command word: its upper half, W[63:32] (R80, R88). -/
def cmdHiOf (w : CommandWord) : Word := w.extractLsb' 32 32

/-- What CMD_A holds to launch a command word: its lower half, W[31:0] (R80, R88). -/
def cmdAOf (w : CommandWord) : Word := w.extractLsb' 0 32

/-! ## The encoder -/

/-- The OPCODE of a command (R83). -/
def opcodeFor : Instr → BitVec 8
  | .mapPixel _ _ => 0x01
  | .unmapPixel _ _ => 0x02
  | .packColor _ _ _ _ => 0x03
  | .unpackColor _ => 0x04
  | .mapSlot _ => 0x05
  | .unmapSlot _ => 0x06
  | .extract => 0x10
  | .inject => 0x11

/-- The OPB field of a command: operand B in FMT-AB, else 0 (R82). -/
def opbFor : Instr → BitVec 24
  | .mapPixel _ b => b
  | .unmapPixel _ b => b
  | .packColor _ _ _ _ => 0
  | .unpackColor _ => 0
  | .mapSlot _ => 0
  | .unmapSlot _ => 0
  | .extract => 0
  | .inject => 0

/-- The OPA field of a command: `a<<24 | b<<16 | g<<8 | r` in FMT-RGBA, 0 in FMT-0 (R81, R82, R87). -/
def opaFor : Instr → Word
  | .mapPixel i _ => i
  | .unmapPixel o _ => o
  | .packColor r g b a => a ++ b ++ g ++ r
  | .unpackColor w => w
  | .mapSlot s => s
  | .unmapSlot t => t
  | .extract => 0
  | .inject => 0

/-- The command word of a command: OPCODE, OPB and OPA in their places (R80). -/
def encode (i : Instr) : CommandWord := opcodeFor i ++ opbFor i ++ opaFor i

/-! ## The opcode table (R84) -/

/-- A row of the match and mask table of R84. -/
structure OpcodeRow where
  mnemonic : String
  pattern : CommandWord
  mask : CommandWord
deriving DecidableEq, Repr

/-- The eight rows of R84. -/
def opcodeRows : List OpcodeRow :=
  [ ⟨"MAP_PIXEL", 0x0100000000000000, 0xFF00000000000000⟩,
    ⟨"UNMAP_PIXEL", 0x0200000000000000, 0xFF00000000000000⟩,
    ⟨"PACK_COLOR", 0x0300000000000000, 0xFFFFFFFF00000000⟩,
    ⟨"UNPACK_COLOR", 0x0400000000000000, 0xFFFFFFFF00000000⟩,
    ⟨"MAP_SLOT", 0x0500000000000000, 0xFFFFFFFF00000000⟩,
    ⟨"UNMAP_SLOT", 0x0600000000000000, 0xFFFFFFFF00000000⟩,
    ⟨"EXTRACT", 0x1000000000000000, 0xFFFFFFFFFFFFFFFF⟩,
    ⟨"INJECT", 0x1100000000000000, 0xFFFFFFFFFFFFFFFF⟩ ]

/-- A word selects a row when `W AND mask = match` (R84). -/
def OpcodeRow.selects (row : OpcodeRow) (w : CommandWord) : Bool := w &&& row.mask == row.pattern

/-- The mnemonic of a command (R83). -/
def mnemonicOf : Instr → String
  | .mapPixel _ _ => "MAP_PIXEL"
  | .unmapPixel _ _ => "UNMAP_PIXEL"
  | .packColor _ _ _ _ => "PACK_COLOR"
  | .unpackColor _ => "UNPACK_COLOR"
  | .mapSlot _ => "MAP_SLOT"
  | .unmapSlot _ => "UNMAP_SLOT"
  | .extract => "EXTRACT"
  | .inject => "INJECT"

/-! ## The host's numbering -/

/-- The command word of an opcode-table row's bits: bit 0 of `w` is bit 0 of the one 64-bit command word, and every bit
at `nbits` or above is 0. -/
def tableWord (nbits w : Nat) : CommandWord := BitVec.ofNat 64 (w % 2 ^ nbits)

/-- The command the decoder reads from a table row's bits, laid out as the hardware holds them: the lower half in CMD_A
and the upper half in CMD_HI (R26, R88). Bits above 63 belong to no command word (R80), so there is none then. -/
def decodeTableWord (nbits w : Nat) : Option Instr :=
  if w % 2 ^ nbits < 2 ^ 64 then
    (decode (commandWord (cmdHiOf (tableWord nbits w)) (cmdAOf (tableWord nbits w)))).toOption
  else none

end Sys2Proof
end

