-- ==== Sys2Proof/Config.lean ====
section
/-! DEFINITION. What is fixed for a given block: the format constants (00_scope.md section 3, D26) and the two OPEN
permutations (R38, R100, R130), which nothing here evaluates. -/

namespace Sys2Proof.Config

/-- The format constants, in one record, as 00_scope.md section 3 asks. -/
structure Format where
  sbSize : Nat
  hdrBase : Nat
  hdrSize : Nat
  magicSize : Nat
  magic : List Byte
  idxBase : Nat
  idxSize : Nat
  palBase : Nat
  palEntries : Nat
  palEntryBytes : Nat
  palSize : Nat
  tailBase : Nat
  tailSize : Nat
  embW : Nat
  embH : Nat
  pixels : Nat
  riBytes : Nat
  maxColors : Nat
deriving DecidableEq, Repr

/-- The values of 00_scope.md section 3, normative although the source's literals are unaudited (D26; log 20). -/
def format : Format where
  sbSize := 17472
  hdrBase := 0
  hdrSize := 36
  magicSize := 12
  magic := [0x20, 0x44, 0x00, 0x00, 0x20, 0x44, 0x00, 0x00, 0x00, 0x40, 0x00, 0x00]
  idxBase := 36
  idxSize := 16384
  palBase := 16420
  palEntries := 256
  palEntryBytes := 4
  palSize := 1024
  tailBase := 17444
  tailSize := 28
  embW := 128
  embH := 128
  pixels := 16384
  riBytes := 65536
  maxColors := 256

/-- The two named parameters of any model of the block, each a function together with a proof that it is a
bijection (R100, R130). `pixel.symm` is PixelPerm⁻¹ (R101) and `slot.symm` is SlotPerm⁻¹ (R131). -/
structure Perms where
  pixel : Equiv.Perm PixelIx
  slot : Equiv.Perm Slot

/-- The named hypothesis SlotZeroFixed, `SlotPerm(0) = 0`, carried separately from the parameter (R132, C3). -/
def Perms.SlotZeroFixed (P : Perms) : Prop := P.slot 0 = 0

/-- PixelPerm: a FREE VALUE, a bijection of [0,16384) of which nothing else is known (R100, R103, D11; log 3). -/
opaque pixelPerm : Equiv.Perm PixelIx

/-- SlotPerm: a FREE VALUE, a bijection of [0,256) of which nothing else is known (R130, R132, D12; log 4). -/
opaque slotPerm : Equiv.Perm Slot

/-- The parameters of this block (R38). -/
def perms : Perms := ⟨pixelPerm, slotPerm⟩

/-- What a byte of an attached buffer reads as when memory lists no cell for it. Every byte inside an attached
buffer was given by the host or by a command, so this is the value an unlisted byte HAS, not a guess (log 6). -/
def blankByte : Byte := 0

end Sys2Proof.Config
end

