-- ==== Sys2Proof/Machine/HostSyntax.lean ====
section
/-! DEFINITION. What the host can do to the block, as data: its registers by name (R23), its actions (R240), and the
lines of its assembler (R87, R89, R90). -/

namespace Sys2Proof.Machine

/-- The eleven registers of the register map, by name (R23). -/
inductive HostReg where
  | cmdA
  | cmdHi
  | status
  | config
  | res
  | resR
  | resG
  | resB
  | resA
  | sbLen
  | riDim
deriving DecidableEq, Repr

/-- The host's actions, each atomic and never inside a command (R240), and the program item STOP_IF_ERROR (R245). -/
inductive HostAction where
  /-- RESET: R230. -/
  | reset
  /-- WR: a register write of `bits` bits at byte offset `offset`; only 32 bits at a listed offset has a meaning (R24). -/
  | wr (bits offset : Nat) (v : Word)
  /-- RD: a register read of `bits` bits at byte offset `offset` (R24). -/
  | rd (bits offset : Nat)
  /-- ATTACH_SB: attach a save buffer with these bytes. -/
  | attachSb (bytes : List Byte)
  /-- ATTACH_RI: attach a raster of width `w`, height `h` and these bytes. -/
  | attachRi (w h : Nat) (bytes : List Byte)
  /-- READ_SB: read the whole save buffer back. -/
  | readSb
  /-- READ_RI: read the whole raster back, with its dimensions. -/
  | readRi
  /-- STOP_IF_ERROR: end the program when STATUS.CODE is not 0 (R245). -/
  | stopIfError
  /-- The host reaches a buffer in any way other than the actions above: outside the model, refused (R244; log 17). -/
  | otherBufferAccess
deriving DecidableEq, Repr

/-- One line of the assembler, its numbers as the line writes them, not yet checked against their fields (R87, R89, R90). -/
inductive AsmLine where
  /-- `MAP_PIXEL <a>, <b>` -/
  | mapPixel (a b : Nat)
  /-- `UNMAP_PIXEL <a>, <b>` -/
  | unmapPixel (a b : Nat)
  /-- `PACK_COLOR <r>, <g>, <b>, <a>` -/
  | packColor (r g b a : Nat)
  /-- `UNPACK_COLOR <w>` -/
  | unpackColor (w : Nat)
  /-- `MAP_SLOT <s>` -/
  | mapSlot (s : Nat)
  /-- `UNMAP_SLOT <s>` -/
  | unmapSlot (s : Nat)
  /-- `EXTRACT` -/
  | extract
  /-- `INJECT` -/
  | inject
  /-- The pseudo-instruction `MAP_PIXEL <i>`, with the default base 36. -/
  | mapPixelDefault (i : Nat)
  /-- The pseudo-instruction `UNMAP_PIXEL <o>`, with the default base 36. -/
  | unmapPixelDefault (o : Nat)
  /-- The pseudo-instruction `MAP_XY <x>, <y>`. -/
  | mapXY (x y : Nat)
  /-- The pseudo-instruction `LAUNCH <word64>`: any 64-bit word, legal or not. -/
  | launch (w : Nat)
  /-- `RESET` -/
  | reset
  /-- `WR <reg>, <value>`, the register by its offset. -/
  | wr (offset v : Nat)
  /-- `RD <reg>`, the register by its offset. -/
  | rd (offset : Nat)
  /-- `ATTACH_SB <n bytes>` -/
  | attachSb (bytes : List Byte)
  /-- `ATTACH_RI <w>, <h>, <w*h*4 bytes>` -/
  | attachRi (w h : Nat) (bytes : List Byte)
  /-- `READ_SB` -/
  | readSb
  /-- `READ_RI` -/
  | readRi
  /-- `STOP_IF_ERROR` -/
  | stopIfError
deriving DecidableEq, Repr

end Sys2Proof.Machine
end

