-- ==== Sys2Proof/Machine/State.lean ====
section
/-! DEFINITION. The state of the block and of the host that drives it, as plain data; the reasons a step can stop; and the
state right after reset (10_state.md; R230, R245). -/

namespace Sys2Proof.Machine

/-- The status codes the block knows (R200). Code 6, IOError, is reserved for the host and never raised (R207). -/
inductive StatusCode where
  | ok
  | formatError
  | headerMismatch
  | indexOutOfRange
  | capacityExceeded
  | sizeError
  | ioError
  | illegalCommand
deriving DecidableEq, Repr

/-- The result registers, each a possible destination of a command (R30, R31). -/
inductive ResultReg where
  | res
  | resR
  | resG
  | resB
  | resA
deriving DecidableEq, Repr

/-- STATUS by its fields; every other bit of the register reads 0 and is stored nowhere (R23, R28; log 13). -/
structure Status where
  /-- CODE, bits [3:0]: the status code of the most recent command. -/
  code : BitVec 4
  /-- STICKY, bit [8]: some command since reset ended with a nonzero code. -/
  sticky : Bool
deriving DecidableEq, Repr

/-- CONFIG by its field; every other bit of the register reads 0 and ignores writes (R23, R29; log 13). -/
structure ControlReg where
  /-- ENFORCE_MAGIC, bit [0]. -/
  enforceMagic : Bool
deriving DecidableEq, Repr

/-- RI_DIM by its fields, which fill the register (R23, R33). -/
structure RasterDim where
  /-- RI_W, bits [15:0]. -/
  w : BitVec 16
  /-- RI_H, bits [31:16]. -/
  h : BitVec 16
deriving DecidableEq, Repr

/-- The bytes of an attached buffer: (offset, byte) pairs with offsets strictly rising and no byte equal to
`Config.blankByte`, which an unlisted offset reads as (log 6). Its length is a register's: SB_LEN, or RI_DIM. -/
structure Memory where
  cells : List Host.Cell
deriving DecidableEq, Repr

/-- What a host action gives back to the host (the last column of R240's table). -/
inductive Reply where
  /-- RD: the register's 32-bit value. -/
  | word (v : Word)
  /-- READ_SB: the current bytes of SB. -/
  | saveBuffer (bytes : List Byte)
  /-- READ_RI: the current bytes of RI, and RI_DIM. -/
  | raster (dim : RasterDim) (bytes : List Byte)
deriving DecidableEq, Repr

/-- The state: the block's registers (R23), its two memories (R34, R35), and the host that steps a program (R245). -/
structure State where
  /-- CMD_A: operand A of the next command (R25). -/
  cmdA : Word
  /-- CMD_HI: the last value written, OPCODE and OPB (R26). -/
  cmdHi : Word
  /-- STATUS (R28). -/
  status : Status
  /-- CONFIG (R29). -/
  config : ControlReg
  /-- RES, or none when it holds no value (R27, R30). -/
  res : Option Word
  /-- RES_R[7:0], or none when it holds no value; bits [31:8] read 0 (R27, R31). -/
  resR : Option Byte
  /-- RES_G[7:0], as RES_R. -/
  resG : Option Byte
  /-- RES_B[7:0], as RES_R. -/
  resB : Option Byte
  /-- RES_A[7:0], as RES_R. -/
  resA : Option Byte
  /-- SB_LEN: the length in bytes of the attached save buffer (R32). -/
  sbLen : Word
  /-- RI_DIM: the width and height of the attached raster (R33). -/
  riDim : RasterDim
  /-- SB: the bytes of the attached save buffer (R34). -/
  sb : Memory
  /-- RI: the bytes of the attached raster (R35). -/
  ri : Memory
  /-- The host's actions still to come, in order: its program from the host index on (R245; log 1). -/
  pending : List HostAction
  /-- The host index: how many actions have been performed (R245). -/
  hostIndex : Nat
  /-- What the host got back from its last action, if that action gives anything back (R240; log 10). -/
  reply : Option Reply
deriving DecidableEq, Repr

/-- Why the machine stops with a fault. -/
inductive Fault where
  /-- A host read of a result register that holds no value, raised by RD. The spec itself names this stop (R27, R240, S1,
  D9). Safe: the hardware would return some value the spec does not fix, and the model gives none. -/
  | noValue (r : ResultReg)
  /-- A command reached outside the attached save buffer, raised by EXTRACT and INJECT (R11, S12). Safe, and unreachable:
  FormatCheck comes first (log 7). -/
  | saveBufferRange
  /-- A command reached outside the attached raster, raised by INJECT (R11, S12). Safe, and unreachable: SizeCheck
  comes first (log 7). -/
  | rasterRange
deriving DecidableEq, Repr

/-- Why the model refuses to give a step a meaning. -/
inductive Refusal where
  /-- An instruction without a meaning yet, raised by `exec`; no arm of this model uses it. Safe. -/
  | notModelled (mnemonic : String)
  /-- A host register access that is not a 32-bit access at a listed offset, raised by WR and RD (R24, S2). Safe: the
  spec says it has no meaning and is refused by the model. -/
  | registerAccess (bits offset : Nat)
  /-- ATTACH_SB with 2^32 bytes or more, raised by ATTACH_SB (R240, S10). Safe: the spec says refuse. -/
  | attachSbTooLong
  /-- ATTACH_RI with a dimension of 65536 or more, or a byte count that is not `w*h*4`, raised by ATTACH_RI (R241, S9).
  Safe: the spec says refuse. -/
  | attachRiShape
  /-- A host that reaches a buffer by anything but the actions of R240 (R244, U10). Safe: the spec says refuse. -/
  | otherBufferAccess
deriving DecidableEq, Repr

/-- How a command ends before it has produced its result. -/
inductive Stop where
  /-- `raise E` (R10, R210). -/
  | raised (e : StatusCode)
  /-- An access outside a buffer (S12). -/
  | fault (f : Fault)
deriving DecidableEq, Repr

/-- A memory with nothing listed. -/
def Memory.empty : Memory := ⟨[]⟩

/-- Right after power-on or RESET: the values of R230. The host's own part starts as R245 says (index 0) with no action
pending and nothing read back (logs 1 and 10). -/
def State.reset : State where
  cmdA := 0
  cmdHi := 0
  status := ⟨0, false⟩
  config := ⟨false⟩
  res := none
  resR := none
  resG := none
  resB := none
  resA := none
  sbLen := 0
  riDim := ⟨0, 0⟩
  sb := .empty
  ri := .empty
  pending := []
  hostIndex := 0
  reply := none

end Sys2Proof.Machine
end

