-- ==== Sys2Proof/Machine/Flags.lean ====
section
/-! DEFINITION. STATUS, CONFIG and RI_DIM: the numbers of the status codes (R200), what a command records (R28, R210, R211),
and each register as the 32-bit word the host sees (R23). -/

namespace Sys2Proof.Machine

/-- The number of a status code (R200). -/
def StatusCode.num : StatusCode → BitVec 4
  | .ok => 0
  | .formatError => 1
  | .headerMismatch => 2
  | .indexOutOfRange => 3
  | .capacityExceeded => 4
  | .sizeError => 5
  | .ioError => 6
  | .illegalCommand => 7

/-- What the end of a command writes: `CODE <- e`, then `STICKY <- STICKY OR (CODE != 0)` (R28). -/
def Status.record (st : Status) (e : StatusCode) : Status where
  code := e.num
  sticky := st.sticky || e.num != 0

/-- STATUS as the host reads it: CODE in [3:0], STICKY in [8], every other bit 0 (R23, R28). -/
def Status.word (st : Status) : Word :=
  BitVec.ofNat 32 (st.code.toNat + (if st.sticky then 256 else 0))

/-- CONFIG as the host reads it: ENFORCE_MAGIC in [0], every other bit 0 (R23, R29). -/
def ControlReg.word (c : ControlReg) : Word := if c.enforceMagic then 1 else 0

/-- CONFIG after the host writes `v`: bit 0 is stored and the reserved bits ignore the write (R24, R29). -/
def ControlReg.ofWord (v : Word) : ControlReg := ⟨v.getLsbD 0⟩

/-- RI_DIM as the host reads it: RI_W in [15:0], RI_H in [31:16] (R23, R33). -/
def RasterDim.word (d : RasterDim) : Word := d.h ++ d.w

/-- The length in bytes of a raster of these dimensions, `RI_W * RI_H * 4` (R35). -/
def RasterDim.bytes (d : RasterDim) : Nat := d.w.toNat * d.h.toNat * 4

end Sys2Proof.Machine
end

