-- ==== Sys2Proof/Machine/Ops.lean ====
section
/-! DEFINITION. The named operations: the bytes of a buffer (R10, R34, R35), the checked accesses of a command (R11, S12),
the result registers (R27, R30, R31), and the end of a command: `raise E` (R210) and success (R211). -/

namespace Sys2Proof.Machine

/-! ## The bytes of a buffer -/

/-- The byte listed for an offset, else what an unlisted offset reads as. -/
def readCells : List Host.Cell → Nat → Byte
  | [], _ => Config.blankByte
  | (k, v) :: rest, a => if k = a then v else readCells rest a

/-- One byte of a buffer: `SBRead8(a)`, `RIRead(a, 1)` (R10). -/
def Memory.read (m : Memory) (a : Nat) : Byte := readCells m.cells a

/-- `n` bytes of a buffer from offset `a` on: `SBRead(a, n)` (R10). -/
def Memory.readRange (m : Memory) (a n : Nat) : List Byte := (List.range n).map fun k => m.read (a + k)

/-- The cells of a run of bytes that starts at offset `a`: a byte equal to the blank byte is not listed. -/
def cellsFrom : Nat → List Byte → List Host.Cell
  | _, [] => []
  | a, b :: rest => if b = Config.blankByte then cellsFrom (a + 1) rest else (a, b) :: cellsFrom (a + 1) rest

/-- A buffer that holds exactly these bytes from offset 0 on: an attach (R240), or EXTRACT's raster (R156). -/
def Memory.ofBytes (bytes : List Byte) : Memory := ⟨cellsFrom 0 bytes⟩

/-- The buffer with a run of bytes written from offset `a` on: `SBWrite(a, n, bytes)` (R10). -/
def Memory.writeRange (m : Memory) (a : Nat) (bytes : List Byte) : Memory :=
  ⟨m.cells.filter (fun c => decide (c.1 < a)) ++ cellsFrom a bytes
    ++ m.cells.filter (fun c => decide (a + bytes.length ≤ c.1))⟩

/-- Offsets strictly rise along the list. -/
def risingCells : List Host.Cell → Bool
  | [] => true
  | [_] => true
  | c :: d :: rest => decide (c.1 < d.1) && risingCells (d :: rest)

/-- The canonical form of a buffer's list of cells (log 6): offsets strictly rising and no listed byte equal to the blank
byte. It is no property of the buffer's bytes: R185's canonical save buffer is `Canonical` of Safety.lean. -/
def Memory.wf (m : Memory) : Bool := risingCells m.cells && m.cells.all fun c => c.2 != Config.blankByte

/-- Every listed offset lies inside a buffer of `n` bytes. -/
def Memory.within (m : Memory) (n : Nat) : Bool := m.cells.all fun c => decide (c.1 < n)

/-! ## The checked accesses of a command -/

/-- The offsets `[a, a+n)` lie inside the attached save buffer; a command that would leave it faults (S12; log 7). -/
def sbInRange (s : State) (a n : Nat) : Except Stop Unit :=
  if a + n ≤ s.sbLen.toNat then .ok () else .error (.fault .saveBufferRange)

/-- The offsets `[a, a+n)` lie inside the attached raster; a command that would leave it faults (S12; log 7). -/
def riInRange (s : State) (a n : Nat) : Except Stop Unit :=
  if a + n ≤ s.riDim.bytes then .ok () else .error (.fault .rasterRange)

/-- `SBRead(a, n)` inside a command (R10, R11). -/
def sbRead (s : State) (a n : Nat) : Except Stop (List Byte) := do
  sbInRange s a n
  return s.sb.readRange a n

/-- `SBWrite(a, n, bytes)` inside a command, `n` the number of bytes (R10, R11). -/
def sbWrite (s : State) (a : Nat) (bytes : List Byte) : Except Stop State := do
  sbInRange s a bytes.length
  return { s with sb := s.sb.writeRange a bytes }

/-! ## The result registers -/

/-- RES as a command's destination: every command that produces a scalar names it (R30). -/
def scalarDests : List ResultReg := [.res]

/-- The four channel registers as destinations: UNPACK_COLOR names all four, no other command any (R31). -/
def channelDests : List ResultReg := [.resR, .resG, .resB, .resA]

/-- One result register made to hold no value (R27). -/
def State.clearResult (s : State) : ResultReg → State
  | .res => { s with res := none }
  | .resR => { s with resR := none }
  | .resG => { s with resG := none }
  | .resB => { s with resB := none }
  | .resA => { s with resA := none }

/-- Each of these result registers made to hold no value (R27, R210). -/
def State.clearResults (s : State) (dests : List ResultReg) : State := dests.foldl State.clearResult s

/-- `RES <- v` (R30). -/
def State.setRes (s : State) (v : Word) : State := { s with res := some v }

/-- `RES_R <- r; RES_G <- g; RES_B <- b; RES_A <- a` (R31, R125). -/
def State.setChannels (s : State) (c : Color) : State :=
  { s with resR := some c.r, resG := some c.g, resB := some c.b, resA := some c.a }

/-! ## The end of a command -/

/-- STATUS written at the end of a command (R28). -/
def State.recordStatus (s : State) (e : StatusCode) : State := { s with status := s.status.record e }

/-- `raise E`: STATUS.CODE <- E, STATUS.STICKY <- 1, every destination of the command holds no value, and nothing else
changes (R210). No program counter, mode or mask is saved and control goes back to the host (R214): there is no return. -/
def State.raise (s : State) (dests : List ResultReg) (e : StatusCode) : State := (s.clearResults dests).recordStatus e

/-- A command succeeds: STATUS.CODE <- 0 and STICKY stays (R211). -/
def State.succeed (s : State) : State := s.recordStatus .ok

/-- The end of a command that started in `s` and names `dests` as its destinations: it has produced its results, or it
raised an error (R210: everything else is as it was before the command), or it left a buffer (S12). -/
def complete (dests : List ResultReg) (s : State) : Except Stop State → Host.Outcome State Fault Refusal
  | .ok t => .next t.succeed
  | .error (.raised e) => .next (s.raise dests e)
  | .error (.fault f) => .fault f

/-- The end of an illegal command word: IllegalCommand, and no destination, since an illegal word names none (R86, R208). -/
def State.illegal (s : State) : State := s.raise [] .illegalCommand

end Sys2Proof.Machine
end

