-- ==== Sys2Proof/Machine/Operands.lean ====
section
/-! DEFINITION. A command's operands as the indices the mappings take, with the range errors of R203, and the pixel
coordinates of R57. -/

namespace Sys2Proof.Machine

/-- A logical pixel index operand: IndexOutOfRange exactly when it is 16384 or more (R104). -/
def pixelOperand (i : Word) : Except Stop PixelIx :=
  if h : i.toNat < 16384 then .ok ⟨i.toNat, h⟩ else .error (.raised .indexOutOfRange)

/-- A physical offset operand relative to a block base: IndexOutOfRange exactly when `o` is outside `[b, b+16384)` (R105). -/
def offsetOperand (o : Word) (b : BitVec 24) : Except Stop PixelIx :=
  if h : b.toNat ≤ o.toNat ∧ o.toNat - b.toNat < 16384 then .ok ⟨o.toNat - b.toNat, h.2⟩
  else .error (.raised .indexOutOfRange)

/-- A slot operand: IndexOutOfRange exactly when it is 256 or more (R133, R134). -/
def slotOperand (s : Word) : Except Stop Slot :=
  if h : s.toNat < 256 then .ok ⟨s.toNat, h⟩ else .error (.raised .indexOutOfRange)

/-- The logical slot an index byte names: its value (R53, R154). -/
def slotOfByte (b : Byte) : Slot := ⟨b.toNat, b.isLt⟩

/-- The index byte that names a logical slot (R53, R177). -/
def byteOfSlot (s : Slot) : Byte := BitVec.ofNat 8 s.val

/-- The logical index of pixel `(x, y)`: `y*128 + x` (R57). -/
def pixelIndex (x y : Nat) : Nat := y * Config.format.embW + x

/-- The row of a logical index: `i / 128` (R57). -/
def pixelRow (i : Nat) : Nat := i / Config.format.embW

/-- The column of a logical index: `i % 128` (R57). -/
def pixelColumn (i : Nat) : Nat := i % Config.format.embW

end Sys2Proof.Machine
end

