-- ==== Sys2Proof/Machine/AddressMapper.lean ====
section
/-! DEFINITION. The address mapper: MAP_PIXEL and UNMAP_PIXEL (40_address_mapper.md). Each command is written for any
parameters `P`; its meaning takes the block's own. -/

namespace Sys2Proof.Machine

/-- The physical offset of a logical index relative to a block base: `b + PixelPerm(i)` (R102, R104). -/
def physicalOffset (P : Config.Perms) (b : Nat) (i : PixelIx) : Nat := b + (P.pixel i).val

/-- MAP_PIXEL for the parameters `P` (R104). It reaches no memory (R61). -/
def mapPixelWith (P : Config.Perms) (i : Word) (b : BitVec 24) (s : State) : Host.Outcome State Fault Refusal :=
  complete scalarDests s do
    let ix ← pixelOperand i
    return s.setRes (BitVec.ofNat 32 (physicalOffset P b.toNat ix))

/-- UNMAP_PIXEL for the parameters `P` (R105). It reaches no memory (R61). -/
def unmapPixelWith (P : Config.Perms) (o : Word) (b : BitVec 24) (s : State) : Host.Outcome State Fault Refusal :=
  complete scalarDests s do
    let k ← offsetOperand o b
    return s.setRes (BitVec.ofNat 32 (P.pixel.symm k).val)

/-- MAP_PIXEL (R104). -/
def execMapPixel (i : Word) (b : BitVec 24) (s : State) : Host.Outcome State Fault Refusal :=
  mapPixelWith Config.perms i b s

/-- UNMAP_PIXEL (R105). -/
def execUnmapPixel (o : Word) (b : BitVec 24) (s : State) : Host.Outcome State Fault Refusal :=
  unmapPixelWith Config.perms o b s

end Sys2Proof.Machine
end

