-- ==== Sys2Proof/Machine/PaletteCodec.lean ====
section
/-! DEFINITION. The color packer and the palette-slot permutation unit: PACK_COLOR, UNPACK_COLOR, MAP_SLOT and UNMAP_SLOT
(41_palette_codec.md), with the byte order of R9 and R58. -/

namespace Sys2Proof.Machine

/-! ## The color encoding -/

/-- `pack(r, g, b, a) = r + 256*g + 65536*b + 16777216*a` (R120). No channel is transformed (R122). -/
def pack (c : Color) : Word :=
  BitVec.ofNat 32 (c.r.toNat + 256 * c.g.toNat + 65536 * c.b.toNat + 16777216 * c.a.toNat)

/-- `unpack(w) = (w[7:0], w[15:8], w[23:16], w[31:24])` (R121). -/
def unpack (w : Word) : Color where
  r := w.extractLsb' 0 8
  g := w.extractLsb' 8 8
  b := w.extractLsb' 16 8
  a := w.extractLsb' 24 8

/-- `LE32(b0, b1, b2, b3)`: four bytes in rising offset order as a 32-bit value (R9). -/
def le32 (b0 b1 b2 b3 : Byte) : Word :=
  BitVec.ofNat 32 (b0.toNat + 256 * b1.toNat + 65536 * b2.toNat + 16777216 * b3.toNat)

/-- `LEBYTES32(w)`: the four bytes of a 32-bit value in rising offset order (R9). -/
def leBytes32 (w : Word) : Vector Byte 4 :=
  #v[w.extractLsb' 0 8, w.extractLsb' 8 8, w.extractLsb' 16 8, w.extractLsb' 24 8]

/-- The save-buffer offset of the palette entry of physical slot `ps`: `PAL_BASE + 4*ps` (R54). -/
def paletteOffset (ps : Slot) : Nat := Config.format.palBase + Config.format.palEntryBytes * ps.val

/-- `PalRead(ps)`: the color of a palette entry (R123). -/
def palRead (sb : Memory) (ps : Slot) : Color :=
  unpack (le32 (sb.read (paletteOffset ps)) (sb.read (paletteOffset ps + 1)) (sb.read (paletteOffset ps + 2))
    (sb.read (paletteOffset ps + 3)))

/-! ## The commands -/

/-- PACK_COLOR (R124): `RES <- pack(r, g, b, a)`. It has no error. -/
def execPackColor (r g b a : Byte) (s : State) : Host.Outcome State Fault Refusal :=
  complete scalarDests s (.ok (s.setRes (pack ⟨r, g, b, a⟩)))

/-- UNPACK_COLOR (R125): the four channel registers take the channels. It has no error, and RES is not a destination. -/
def execUnpackColor (w : Word) (s : State) : Host.Outcome State Fault Refusal :=
  complete channelDests s (.ok (s.setChannels (unpack w)))

/-- MAP_SLOT for the parameters `P` (R133). -/
def mapSlotWith (P : Config.Perms) (slot : Word) (s : State) : Host.Outcome State Fault Refusal :=
  complete scalarDests s do
    let ls ← slotOperand slot
    return s.setRes (BitVec.ofNat 32 (P.slot ls).val)

/-- UNMAP_SLOT for the parameters `P` (R134). -/
def unmapSlotWith (P : Config.Perms) (slot : Word) (s : State) : Host.Outcome State Fault Refusal :=
  complete scalarDests s do
    let ps ← slotOperand slot
    return s.setRes (BitVec.ofNat 32 (P.slot.symm ps).val)

/-- MAP_SLOT (R133). -/
def execMapSlot (slot : Word) (s : State) : Host.Outcome State Fault Refusal := mapSlotWith Config.perms slot s

/-- UNMAP_SLOT (R134). -/
def execUnmapSlot (slot : Word) (s : State) : Host.Outcome State Fault Refusal := unmapSlotWith Config.perms slot s

end Sys2Proof.Machine
end

