-- ==== Sys2Proof/Machine/Composition.lean ====
section
/-! DEFINITION. The composition layer: EXTRACT and INJECT over the save buffer and the raster (42_composition.md). Each
command is written for any parameters `P`; its meaning takes the block's own. -/

namespace Sys2Proof.Machine

/-! ## The checks -/

/-- FormatCheck: FormatError unless SB_LEN is 17472 (R150). -/
def formatCheck (s : State) : Except Stop Unit :=
  if s.sbLen.toNat = Config.format.sbSize then .ok () else .error (.raised .formatError)

/-- MagicCheck: with ENFORCE_MAGIC = 1, HeaderMismatch when bytes [0,12) differ from MAGIC; with 0, nothing is read (R152). -/
def magicCheck (s : State) : Except Stop Unit :=
  if s.config.enforceMagic then do
    let bytes ← sbRead s Config.format.hdrBase Config.format.magicSize
    if bytes = Config.format.magic then .ok () else .error (.raised .headerMismatch)
  else .ok ()

/-- SizeCheck: SizeError unless the attached raster is 128 by 128 (R171). -/
def sizeCheck (s : State) : Except Stop Unit :=
  if s.riDim.w.toNat = Config.format.embW ∧ s.riDim.h.toNat = Config.format.embH then .ok ()
  else .error (.raised .sizeError)

/-! ## EXTRACT -/

/-- `for i in 0 .. 16383`: every logical index in row-major order (R57, R155). It is irreducible so that no proof unfolds
its 16384 entries by accident. -/
@[irreducible] def allPixels : List PixelIx := List.finRange 16384

/-- The save-buffer offset of the index byte of a pixel: `36 + PixelPerm(i)` (R53). -/
def indexOffset (P : Config.Perms) (i : PixelIx) : Nat := physicalOffset P Config.format.idxBase i

/-- ExtractPixel: `PalRead(SlotPerm(SBRead8(36 + PixelPerm(i))))` (R153, R136). -/
def extractPixel (P : Config.Perms) (sb : Memory) (i : PixelIx) : Color :=
  palRead sb (P.slot (slotOfByte (sb.read (indexOffset P i))))

/-- The four raster bytes of a pixel, in the order R, G, B, A (R35, R57). -/
def colorBytes (c : Color) : List Byte := [c.r, c.g, c.b, c.a]

/-- The 65536 bytes EXTRACT computes: its 16384 pixels in row-major order (R155). -/
def extractBytes (P : Config.Perms) (sb : Memory) : List Byte :=
  allPixels.flatMap fun i => colorBytes (extractPixel P sb i)

/-- The dimensions of the emblem's raster: 128 by 128 (R156). -/
def emblemDim : RasterDim := ⟨BitVec.ofNat 16 Config.format.embW, BitVec.ofNat 16 Config.format.embH⟩

/-- EXTRACT for the parameters `P` (R155): FormatCheck, then MagicCheck (R157), then the raster is replaced (R156). Every
access of R153 lies in `[36, 17444)`, which is checked once for all of them (R154, S12). -/
def extractWith (P : Config.Perms) (s : State) : Host.Outcome State Fault Refusal :=
  complete scalarDests s do
    formatCheck s
    magicCheck s
    sbInRange s Config.format.idxBase (Config.format.idxSize + Config.format.palSize)
    return { s with ri := .ofBytes (extractBytes P s.sb), riDim := emblemDim }.setRes
      (BitVec.ofNat 32 Config.format.riBytes)

/-! ## INJECT -/

/-- The color of a pixel of the attached raster: raster bytes `4*i .. 4*i+3` (R57, R173). -/
def pixelColor (ri : Memory) (i : PixelIx) : Color :=
  ⟨ri.read (4 * i.val), ri.read (4 * i.val + 1), ri.read (4 * i.val + 2), ri.read (4 * i.val + 3)⟩

/-- The raster's colors in row-major order (R173). -/
def rasterColors (ri : Memory) : List Color := allPixels.map (pixelColor ri)

/-- What BuildPalette builds: the palette list P in first-seen order and the positions `pos`, one per pixel (R173). -/
structure Palette where
  colors : List Color
  pos : List Nat
deriving DecidableEq, Repr

/-- BuildPalette over the colors still to scan, P being the palette so far: a color already in P takes its position, a new
one is appended, and a 257th distinct one raises CapacityExceeded at once (R173, R174). -/
def scanColors (colors : List Color) : List Color → Except Stop Palette
  | [] => .ok ⟨colors, []⟩
  | c :: rest =>
    match colors.idxOf? c with
    | some k => (scanColors colors rest).map fun p => { p with pos := k :: p.pos }
    | none =>
      if colors.length = Config.format.maxColors then .error (.raised .capacityExceeded)
      else (scanColors (colors ++ [c]) rest).map fun p => { p with pos := colors.length :: p.pos }

/-- BuildPalette (R173): the scan starts with the empty palette. -/
def buildPalette (ri : Memory) : Except Stop Palette := scanColors [] (rasterColors ri)

/-- The staging buffer STG: offset `k` stands for save-buffer offset `36 + k` (R37, R123). -/
abbrev Staging := Vector Byte 17408

/-- `STG <- SBRead(36, 17408)` (R176). -/
def stageBlocks (sb : Memory) : Staging := Vector.ofFn fun k => sb.read (Config.format.idxBase + k.val)

/-- The slot whose number is a palette position; a position of a palette of at most 256 colors is below 256 (R173). -/
def slotOfPos (p : Nat) : Slot := Fin.ofNat 256 p

/-- `STG[PixelPerm(i)] <- SlotPerm⁻¹(pos[i])` (R177). -/
def stageIndexByte (P : Config.Perms) (pos : List Nat) (stg : Staging) (i : PixelIx) : Staging :=
  stg.set (P.pixel i).val (byteOfSlot (P.slot.symm (slotOfPos (pos.getD i.val 0)))) (by omega)

/-- `StgPalWrite(ps, c)`: `STG[16384 + 4*ps .. 16384 + 4*ps + 3] <- LEBYTES32(pack(c))` (R123). -/
def stgPalWrite (stg : Staging) (ps : Slot) (c : Color) : Staging :=
  let bytes := leBytes32 (pack c)
  (((stg.set (16384 + 4 * ps.val) bytes[0] (by omega)).set (16384 + 4 * ps.val + 1) bytes[1] (by omega)).set
    (16384 + 4 * ps.val + 2) bytes[2] (by omega)).set (16384 + 4 * ps.val + 3) bytes[3] (by omega)

/-- The palette entry of palette position `p` is staged at physical slot `SlotPerm(SlotPerm⁻¹(p))` (R178). -/
def stageEntry (P : Config.Perms) (stg : Staging) (entry : Color × Nat) : Staging :=
  stgPalWrite stg (P.slot (P.slot.symm (slotOfPos entry.2))) entry.1

/-- The staged blocks: a copy of the current ones (R176), then every index byte (R177), then every palette entry (R178). -/
def stage (P : Config.Perms) (sb : Memory) (pal : Palette) : Staging :=
  pal.colors.zipIdx.foldl (stageEntry P) (allPixels.foldl (stageIndexByte P pal.pos) (stageBlocks sb))

/-- INJECT for the parameters `P` (R175): SizeCheck, FormatCheck, MagicCheck, then the capacity check (R170); the whole
new content is staged and committed in one write, or nothing is written (R179, R180). -/
def injectWith (P : Config.Perms) (s : State) : Host.Outcome State Fault Refusal :=
  complete scalarDests s do
    sizeCheck s
    formatCheck s
    magicCheck s
    riInRange s 0 Config.format.riBytes
    let pal ← buildPalette s.ri
    sbInRange s Config.format.idxBase (Config.format.idxSize + Config.format.palSize)
    let t ← sbWrite s Config.format.idxBase (stage P s.sb pal).toList
    return t.setRes (BitVec.ofNat 32 pal.colors.length)

/-! ## The meanings -/

/-- EXTRACT (R155). -/
def execExtract (s : State) : Host.Outcome State Fault Refusal := extractWith Config.perms s

/-- INJECT (R175). -/
def execInject (s : State) : Host.Outcome State Fault Refusal := injectWith Config.perms s

end Sys2Proof.Machine
end

