-- ==== Sys2Proof/Machine/Dispatch.lean ====
section
/-! DEFINITION. One arm per command (R83). -/

namespace Sys2Proof.Machine

def exec (i : Instr) (s : State) : Host.Outcome State Fault Refusal :=
  match i with
  | .mapPixel ix b => Sys2Proof.Machine.execMapPixel ix b s
  | .unmapPixel o b => Sys2Proof.Machine.execUnmapPixel o b s
  | .packColor r g b a => Sys2Proof.Machine.execPackColor r g b a s
  | .unpackColor w => Sys2Proof.Machine.execUnpackColor w s
  | .mapSlot ls => Sys2Proof.Machine.execMapSlot ls s
  | .unmapSlot ps => Sys2Proof.Machine.execUnmapSlot ps s
  | .extract => Sys2Proof.Machine.execExtract s
  | .inject => Sys2Proof.Machine.execInject s

end Sys2Proof.Machine
end

