-- ==== Sys2Proof/Machine/Launch.lean ====
section
/-! DEFINITION. Launching the command that CMD_HI and CMD_A hold (R26, R85, R86). -/

namespace Sys2Proof.Machine

/-- The command word the registers hold, `CMD_HI || CMD_A` (R26, R80). -/
def State.command (s : State) : CommandWord := commandWord s.cmdHi s.cmdA

/-- The block runs the command word its registers hold: the command it decodes to, or IllegalCommand before any operand
is examined (R85, R86, R208, R212). -/
def launch (s : State) : Host.Outcome State Fault Refusal :=
  match decode s.command with
  | .ok i => exec i s
  | .error _ => .next s.illegal

end Sys2Proof.Machine
end

