-- ==== Sys2Proof/Machine/RegisterMap.lean ====
section
/-! DEFINITION. The register map: where each host register sits and whether the host may write it (R23). -/

namespace Sys2Proof.Machine

/-- The byte offset of a register in the block's register space (R23). -/
def HostReg.offset : HostReg → Nat
  | .cmdA => 0x00
  | .cmdHi => 0x04
  | .status => 0x08
  | .config => 0x0C
  | .res => 0x10
  | .resR => 0x14
  | .resG => 0x18
  | .resB => 0x1C
  | .resA => 0x20
  | .sbLen => 0x24
  | .riDim => 0x28

/-- The register at a byte offset; none at 0x2C and above and at offsets that are not a multiple of 4 (R23). -/
def HostReg.ofOffset : Nat → Option HostReg
  | 0x00 => some .cmdA
  | 0x04 => some .cmdHi
  | 0x08 => some .status
  | 0x0C => some .config
  | 0x10 => some .res
  | 0x14 => some .resR
  | 0x18 => some .resG
  | 0x1C => some .resB
  | 0x20 => some .resA
  | 0x24 => some .sbLen
  | 0x28 => some .riDim
  | _ => none

/-- The registers the host may write: CMD_A, CMD_HI and CONFIG; all others are read-only (R23). -/
def HostReg.writable : HostReg → Bool
  | .cmdA => true
  | .cmdHi => true
  | .config => true
  | _ => false

/-- The register an access of `bits` bits at `offset` reaches: only whole 32-bit words at listed offsets reach one (R24). -/
def accessedReg (bits offset : Nat) : Option HostReg :=
  if bits = 32 then HostReg.ofOffset offset else none

/-- Every register, in the order of R23's table. -/
def HostReg.all : List HostReg :=
  [.cmdA, .cmdHi, .status, .config, .res, .resR, .resG, .resB, .resA, .sbLen, .riDim]

end Sys2Proof.Machine
end

