-- ==== Sys2Proof/Machine/HostPort.lean ====
section
/-! DEFINITION. The host's actions (R240): register accesses (R24 to R29), attaching and reading back the buffers, RESET,
and the program item STOP_IF_ERROR (R245). -/

namespace Sys2Proof.Machine

/-! ## Register reads -/

/-- The value of a result register as a 32-bit word; a read of "no value" is a fault of the model and never a value, as
the spec says (R27, R240, S1, D9). -/
def resultValue (r : ResultReg) : Option Word → Except Fault Word
  | some v => .ok v
  | none => .error (.noValue r)

/-- What a host read of a register returns: no read has a side effect, and reserved bits read 0 (R23, R24, R27). -/
def State.readReg (s : State) : HostReg → Except Fault Word
  | .cmdA => .ok s.cmdA
  | .cmdHi => .ok s.cmdHi
  | .status => .ok s.status.word
  | .config => .ok s.config.word
  | .res => resultValue .res s.res
  | .resR => resultValue .resR (s.resR.map (BitVec.setWidth 32))
  | .resG => resultValue .resG (s.resG.map (BitVec.setWidth 32))
  | .resB => resultValue .resB (s.resB.map (BitVec.setWidth 32))
  | .resA => resultValue .resA (s.resA.map (BitVec.setWidth 32))
  | .sbLen => .ok s.sbLen
  | .riDim => .ok s.riDim.word

/-- RD: the register's value goes back to the host, or the read faults (R24, R27, R240). -/
def readAction (bits offset : Nat) (s : State) : Host.Outcome State Fault Refusal :=
  match accessedReg bits offset with
  | none => .refused (.registerAccess bits offset)
  | some r =>
    match s.readReg r with
    | .ok v => .next { s with reply := some (.word v) }
    | .error f => .fault f

/-! ## Register writes -/

/-- WR: CMD_A is stored and launches nothing (R25); CMD_HI is stored and then launches (R26); CONFIG keeps its defined bit
(R29); a write to a read-only register changes nothing (R24). -/
def State.writeReg (s : State) (r : HostReg) (v : Word) : Host.Outcome State Fault Refusal :=
  match r with
  | .cmdA => .next { s with cmdA := v }
  | .cmdHi => launch { s with cmdHi := v }
  | .config => .next { s with config := .ofWord v }
  | .status => .next s
  | .res => .next s
  | .resR => .next s
  | .resG => .next s
  | .resB => .next s
  | .resA => .next s
  | .sbLen => .next s
  | .riDim => .next s

/-- WR at a width and an offset: only a 32-bit access at a listed offset has a meaning (R24). -/
def writeAction (bits offset : Nat) (v : Word) (s : State) : Host.Outcome State Fault Refusal :=
  match accessedReg bits offset with
  | none => .refused (.registerAccess bits offset)
  | some r => s.writeReg r v

/-! ## Attaching and reading the buffers -/

/-- ATTACH_SB: `SB <- bytes; SB_LEN <- its length`, for any length below 2^32 (R240). -/
def attachSbAction (bytes : List Byte) (s : State) : Host.Outcome State Fault Refusal :=
  if bytes.length < 2 ^ 32 then .next { s with sb := .ofBytes bytes, sbLen := BitVec.ofNat 32 bytes.length }
  else .refused .attachSbTooLong

/-- ATTACH_RI: `RI <- bytes; RI_DIM <- h << 16 | w`, for `w, h < 65536` and `w*h*4` bytes (R240, R241). -/
def attachRiAction (w h : Nat) (bytes : List Byte) (s : State) : Host.Outcome State Fault Refusal :=
  if w < 65536 ∧ h < 65536 ∧ bytes.length = w * h * 4 then
    .next { s with ri := .ofBytes bytes, riDim := ⟨BitVec.ofNat 16 w, BitVec.ofNat 16 h⟩ }
  else .refused .attachRiShape

/-- The current bytes of SB (R240, R242). -/
def State.sbBytes (s : State) : List Byte := s.sb.readRange 0 s.sbLen.toNat

/-- The current bytes of RI (R240, R242). -/
def State.riBytes (s : State) : List Byte := s.ri.readRange 0 s.riDim.bytes

/-! ## Reset and the program -/

/-- RESET: every piece of the block's state takes its value of R230, and no command is launched (R232). The host's own
program, index and reply are not the block's and stay (log 9). -/
def State.resetBlock (s : State) : State :=
  { State.reset with pending := s.pending, hostIndex := s.hostIndex, reply := s.reply }

/-- STOP_IF_ERROR: the program ends when CODE is not 0 (R245); the actions still to come are never performed (log 8). -/
def State.stopIfError (s : State) : State := if s.status.code = 0 then s else { s with pending := [] }

/-- One host action, performed in the state in which the host index already stands past it. -/
def perform (a : HostAction) (s : State) : Host.Outcome State Fault Refusal :=
  match a with
  | .reset => .next s.resetBlock
  | .wr bits offset v => writeAction bits offset v s
  | .rd bits offset => readAction bits offset s
  | .attachSb bytes => attachSbAction bytes s
  | .attachRi w h bytes => attachRiAction w h bytes s
  | .readSb => .next { s with reply := some (.saveBuffer s.sbBytes) }
  | .readRi => .next { s with reply := some (.raster s.riDim s.riBytes) }
  | .stopIfError => .next s.stopIfError
  | .otherBufferAccess => .refused .otherBufferAccess

/-- The host index moves past the action it is at (R245); nothing has been read back yet by that action (log 10). -/
def State.takeAction (s : State) (rest : List HostAction) : State :=
  { s with pending := rest, hostIndex := s.hostIndex + 1, reply := none }

/-- The next action of the host, or none: past its last action the program has ended and the block is idle and holds its
registers (R222, R232, R245; log 2). -/
def hostStep (s : State) : Host.Outcome State Fault Refusal :=
  match s.pending with
  | [] => .next s
  | a :: rest => perform a (s.takeAction rest)

/-! ## The host's program -/

/-- The write of CMD_HI that launches a command word whose lower half CMD_A holds (R88). -/
def launchAction (w : CommandWord) : HostAction := .wr 32 HostReg.cmdHi.offset (cmdHiOf w)

/-- The state in which the very next host action launches the command word `w`: CMD_A holds its lower half and the host's
next action writes its upper half to CMD_HI (R26, R88; log 12). -/
def State.placeCommand (s : State) (w : CommandWord) : State :=
  { s with cmdA := cmdAOf w, pending := launchAction w :: s.pending }

/-- The state with a program to run: the host's actions from here on, the host index at 0 (R245; log 1). -/
def State.loadProgram (s : State) (program : List HostAction) : State :=
  { s with pending := program, hostIndex := 0, reply := none }

end Sys2Proof.Machine
end

