-- ==== Sys2Proof/WellFormed.lean ====
section
/-! DEFINITION. What is well formed: command words (R82, R86), host actions (R24, R240, R241, R244) and assembler lines
(R87, R89). A term of `Instr` needs no check of its own: its types carry the operand widths of R80 and R81. -/

namespace Sys2Proof

/-- The operands of a command fit the fields of R80 and R81. It holds of every term, by the types of `Instr`
(Laws/Decode.lean proves it); an operand too wide for its field can be written only in an assembler line. -/
def Instr.wellFormed : Instr → Bool
  | .mapPixel i b => decide (i.toNat < 2 ^ 32) && decide (b.toNat < 2 ^ 24)
  | .unmapPixel o b => decide (o.toNat < 2 ^ 32) && decide (b.toNat < 2 ^ 24)
  | .packColor r g b a =>
      decide (r.toNat < 2 ^ 8) && decide (g.toNat < 2 ^ 8) && decide (b.toNat < 2 ^ 8) && decide (a.toNat < 2 ^ 8)
  | .unpackColor w => decide (w.toNat < 2 ^ 32)
  | .mapSlot s => decide (s.toNat < 2 ^ 32)
  | .unmapSlot t => decide (t.toNat < 2 ^ 32)
  | .extract => true
  | .inject => true

namespace Machine

/-- A host action has a meaning: register accesses are 32-bit at a listed offset (R24), an attached save buffer is shorter
than 2^32 bytes (R240, S10), an attached raster has `w, h < 65536` and exactly `w*h*4` bytes (R241, S9), and the host
reaches the buffers in no other way (R244). -/
def HostAction.wellFormed : HostAction → Bool
  | .reset => true
  | .wr bits offset _ => (accessedReg bits offset).isSome
  | .rd bits offset => (accessedReg bits offset).isSome
  | .attachSb bytes => decide (bytes.length < 2 ^ 32)
  | .attachRi w h bytes => decide (w < 65536) && decide (h < 65536) && decide (bytes.length = w * h * 4)
  | .readSb => true
  | .readRi => true
  | .stopIfError => true
  | .otherBufferAccess => false

/-- An assembler line is accepted: no operand is wider than its field, and MAP_XY's x and y are at most 127 (R87, R89). -/
def AsmLine.wellFormed : AsmLine → Bool
  | .mapPixel a b => decide (a < 2 ^ 32) && decide (b < 2 ^ 24)
  | .unmapPixel a b => decide (a < 2 ^ 32) && decide (b < 2 ^ 24)
  | .packColor r g b a => decide (r < 2 ^ 8) && decide (g < 2 ^ 8) && decide (b < 2 ^ 8) && decide (a < 2 ^ 8)
  | .unpackColor w => decide (w < 2 ^ 32)
  | .mapSlot s => decide (s < 2 ^ 32)
  | .unmapSlot s => decide (s < 2 ^ 32)
  | .extract => true
  | .inject => true
  | .mapPixelDefault i => decide (i < 2 ^ 32)
  | .unmapPixelDefault o => decide (o < 2 ^ 32)
  | .mapXY x y => decide (x ≤ 127) && decide (y ≤ 127)
  | .launch w => decide (w < 2 ^ 64)
  | .reset => true
  | .wr _ v => decide (v < 2 ^ 32)
  | .rd _ => true
  | .attachSb _ => true
  | .attachRi _ _ _ => true
  | .readSb => true
  | .readRi => true
  | .stopIfError => true

end Machine

end Sys2Proof
end

