-- ==== Sys2Proof/Machine/Assembler.lean ====
section
/-! DEFINITION. The assembler: a line of text as a line of the assembler's language (R7, R87, R90), and the host actions a
line expands to (R88, R89). -/

namespace Sys2Proof.Machine

/-! ## Expansion -/

/-- The two host register writes of a command word: `WR CMD_A, W[31:0]` then `WR CMD_HI, W[63:32]` (R88, R246). -/
def wordActions (w : CommandWord) : List HostAction := [.wr 32 HostReg.cmdA.offset (cmdAOf w), launchAction w]

/-- The two host register writes of a command (R88). -/
def commandActions (i : Instr) : List HostAction := wordActions (encode i)

/-- What an accepted line expands to (R88, R89, R90). -/
def AsmLine.actions : AsmLine → List HostAction
  | .mapPixel a b => commandActions (.mapPixel (BitVec.ofNat 32 a) (BitVec.ofNat 24 b))
  | .unmapPixel a b => commandActions (.unmapPixel (BitVec.ofNat 32 a) (BitVec.ofNat 24 b))
  | .packColor r g b a =>
      commandActions (.packColor (BitVec.ofNat 8 r) (BitVec.ofNat 8 g) (BitVec.ofNat 8 b) (BitVec.ofNat 8 a))
  | .unpackColor w => commandActions (.unpackColor (BitVec.ofNat 32 w))
  | .mapSlot s => commandActions (.mapSlot (BitVec.ofNat 32 s))
  | .unmapSlot s => commandActions (.unmapSlot (BitVec.ofNat 32 s))
  | .extract => commandActions .extract
  | .inject => commandActions .inject
  | .mapPixelDefault i => commandActions (.mapPixel (BitVec.ofNat 32 i) (BitVec.ofNat 24 Config.format.idxBase))
  | .unmapPixelDefault o => commandActions (.unmapPixel (BitVec.ofNat 32 o) (BitVec.ofNat 24 Config.format.idxBase))
  | .mapXY x y =>
      commandActions (.mapPixel (BitVec.ofNat 32 (pixelIndex x y)) (BitVec.ofNat 24 Config.format.idxBase))
  | .launch w => wordActions (BitVec.ofNat 64 w)
  | .reset => [.reset]
  | .wr offset v => [.wr 32 offset (BitVec.ofNat 32 v)]
  | .rd offset => [.rd 32 offset]
  | .attachSb bytes => [.attachSb bytes]
  | .attachRi w h bytes => [.attachRi w h bytes]
  | .readSb => [.readSb]
  | .readRi => [.readRi]
  | .stopIfError => [.stopIfError]

/-- The assembler: a line with an operand too wide for its field is refused, never truncated (R87); an accepted one
expands to its host actions. -/
def assemble (line : AsmLine) : Option (List HostAction) := if line.wellFormed then some line.actions else none

/-! ## Text -/

/-- A line without its comment: `;` starts a comment (R87). -/
def withoutComment : List Char → List Char
  | [] => []
  | c :: rest => if c = ';' then [] else c :: withoutComment rest

/-- Blanks between the parts of a line: space and tab (log 18). -/
def isBlank (c : Char) : Bool := c = ' ' || c = '\t'

/-- A text without the blanks at its two ends. -/
def trimBlanks (cs : List Char) : List Char := ((cs.dropWhile isBlank).reverse.dropWhile isBlank).reverse

/-- The value of a hexadecimal digit, of either case (log 18). -/
def hexDigit (c : Char) : Option Nat :=
  if '0' ≤ c ∧ c ≤ '9' then some (c.toNat - '0'.toNat)
  else if 'a' ≤ c ∧ c ≤ 'f' then some (c.toNat - 'a'.toNat + 10)
  else if 'A' ≤ c ∧ c ≤ 'F' then some (c.toNat - 'A'.toNat + 10)
  else none

/-- The value of a decimal digit. -/
def decDigit (c : Char) : Option Nat := if '0' ≤ c ∧ c ≤ '9' then some (c.toNat - '0'.toNat) else none

/-- The number some digits write in a base, after the value `acc` of the digits before them. -/
def readDigits (digit : Char → Option Nat) (base acc : Nat) : List Char → Option Nat
  | [] => some acc
  | c :: rest => (digit c).bind fun d => readDigits digit base (base * acc + d) rest

/-- The number some digits write in a base; no digits write none. -/
def numberOf (digit : Char → Option Nat) (base : Nat) (digits : List Char) : Option Nat :=
  if digits.isEmpty then none else readDigits digit base 0 digits

/-- A number: decimal, or hexadecimal after `0x` (R87). DESIGN CHOICE (log 18): every `_` after `0x` is skipped wherever it
stands, so `0x_1`, `0x1_` and `0x1__2` are numbers too, though the spec writes `_` only between the halves of a 64-bit word
(R84, 95_test_vectors.md). -/
def parseNumber : List Char → Option Nat
  | '0' :: 'x' :: digits => numberOf hexDigit 16 (digits.filter (· ≠ '_'))
  | digits => numberOf decDigit 10 digits

/-- One byte of a byte sequence: two hexadecimal digits (R7). -/
def parseByte : List Char → Option Byte
  | [hi, lo] => (hexDigit hi).bind fun h => (hexDigit lo).map fun l => BitVec.ofNat 8 (16 * h + l)
  | _ => none

/-- A byte sequence: space-separated bytes in rising offset order, none for an empty sequence (R7). -/
def parseBytes (cs : List Char) : Option (List Byte) :=
  ((cs.splitOnP isBlank).filter fun w => !w.isEmpty).mapM parseByte

/-- The name of a register (R23). -/
def HostReg.name : HostReg → String
  | .cmdA => "CMD_A"
  | .cmdHi => "CMD_HI"
  | .status => "STATUS"
  | .config => "CONFIG"
  | .res => "RES"
  | .resR => "RES_R"
  | .resG => "RES_G"
  | .resB => "RES_B"
  | .resA => "RES_A"
  | .sbLen => "SB_LEN"
  | .riDim => "RI_DIM"

/-- A register operand: a register's name (R90), or its offset as a number (95_test_vectors.md section 3.9). -/
def parseReg (cs : List Char) : Option Nat :=
  match HostReg.all.find? fun r => r.name.toList == cs with
  | some r => some r.offset
  | none => parseNumber cs

/-- The operands of a line: separated by commas, none when nothing follows the mnemonic (R87). -/
def splitOperands (cs : List Char) : List (List Char) :=
  if cs.isEmpty then [] else (cs.splitOnP (· = ',')).map trimBlanks

/-- A line whose operands are all numbers: the eight commands, the pseudo-instructions, and the actions without operands
(R87, R89, R90). The mnemonic decides, with the number of operands for the two that have a default (R89). -/
def numericLine (name : String) : List Nat → Option AsmLine
  | [] =>
    if name = "EXTRACT" then some .extract
    else if name = "INJECT" then some .inject
    else if name = "RESET" then some .reset
    else if name = "READ_SB" then some .readSb
    else if name = "READ_RI" then some .readRi
    else if name = "STOP_IF_ERROR" then some .stopIfError
    else none
  | [n] =>
    if name = "MAP_PIXEL" then some (.mapPixelDefault n)
    else if name = "UNMAP_PIXEL" then some (.unmapPixelDefault n)
    else if name = "UNPACK_COLOR" then some (.unpackColor n)
    else if name = "MAP_SLOT" then some (.mapSlot n)
    else if name = "UNMAP_SLOT" then some (.unmapSlot n)
    else if name = "LAUNCH" then some (.launch n)
    else none
  | [m, n] =>
    if name = "MAP_PIXEL" then some (.mapPixel m n)
    else if name = "UNMAP_PIXEL" then some (.unmapPixel m n)
    else if name = "MAP_XY" then some (.mapXY m n)
    else none
  | [r, g, b, a] => if name = "PACK_COLOR" then some (.packColor r g b a) else none
  | _ => none

/-- The line a mnemonic and its operands stand for (R87, R89, R90). -/
def parseOperands (name : String) (ops : List (List Char)) : Option AsmLine :=
  if name = "WR" then
    match ops with
    | [reg, value] => (parseReg reg).bind fun o => (parseNumber value).map fun v => .wr o v
    | _ => none
  else if name = "RD" then
    match ops with
    | [reg] => (parseReg reg).map fun o => .rd o
    | _ => none
  else if name = "ATTACH_SB" then
    match ops with
    | [] => some (.attachSb [])
    | [bytes] => (parseBytes bytes).map fun bs => .attachSb bs
    | _ => none
  else if name = "ATTACH_RI" then
    match ops with
    | [w, h, bytes] =>
      (parseNumber w).bind fun w => (parseNumber h).bind fun h => (parseBytes bytes).map fun bs => .attachRi w h bs
    | _ => none
  else (ops.mapM parseNumber).bind (numericLine name)

/-- The line a text stands for, its comment and the blanks at its ends already taken away: a mnemonic, then its operands. -/
def parseInstruction (cs : List Char) : Option AsmLine :=
  parseOperands (String.ofList (cs.takeWhile fun c => !isBlank c))
    (splitOperands (trimBlanks (cs.dropWhile fun c => !isBlank c)))

/-- The host actions of one line of text: none for an empty or a comment line, and a refusal (`none`) for a line that is
not one of the language or has an operand too wide for its field (R87). -/
def assembleText (line : List Char) : Option (List HostAction) :=
  match trimBlanks (withoutComment line) with
  | [] => some []
  | c :: cs => (parseInstruction (c :: cs)).bind assemble

/-- The host actions of a program, one command per line (R87, R245); refused when one of its lines is. -/
def assembleProgram (lines : List (List Char)) : Option (List HostAction) := (lines.mapM assembleText).map List.flatten

end Sys2Proof.Machine
end

