-- ==== Sys2Proof/Safety.lean ====
section
/-! DEFINITION. What the claims are about: the invariants of the state, the conditions a command checks, the colors of a
raster, canonical save buffers, and what one command may depend on. -/

namespace Sys2Proof.Machine

/-! ## Invariants -/

/-- Both buffers' lists of cells are in the form of log 6 (offsets rising, no zero byte listed; not R185's property of a save
buffer) and list no offset outside them: SB is SB_LEN bytes (R34), RI is
`RI_W * RI_H * 4` bytes (R35). -/
def BuffersInv (s : State) : Prop :=
  s.sb.wf = true ∧ s.sb.within s.sbLen.toNat = true ∧ s.ri.wf = true ∧ s.ri.within s.riDim.bytes = true

/-- The codes the block can produce: 0 to 5 and 7, never 6 (R207) and never 8 to 15 (R200). -/
def producedCodes : List (BitVec 4) := [0, 1, 2, 3, 4, 5, 7]

/-- STATUS holds a code the block can produce, and STICKY is 1 when CODE is nonzero (R28, R200, R207). -/
def StatusInv (s : State) : Prop := s.status.code ∈ producedCodes ∧ (s.status.code ≠ 0 → s.status.sticky = true)

/-! ## What a command checks -/

/-- The attached save buffer has the length of a valid save (R50, R150). -/
def ValidLength (s : State) : Prop := s.sbLen = 17472#32

/-- MagicCheck passes: the magic is enforced only with ENFORCE_MAGIC = 1 (R152). -/
def MagicPasses (s : State) : Prop :=
  s.config.enforceMagic = true → ∀ k : Fin 12, s.sb.read k.val = Config.format.magic.getD k.val 0

/-- The attached raster is 128 by 128 (R171). -/
def EmblemRaster (s : State) : Prop := s.riDim.w = 128#16 ∧ s.riDim.h = 128#16

/-- Every condition EXTRACT checks (R157). -/
def ExtractReady (s : State) : Prop := ValidLength s ∧ MagicPasses s

/-! ## The colors of a raster -/

/-- How many distinct colors a 128 by 128 raster holds (R174). -/
def distinctColors (ri : Memory) : Nat := (rasterColors ri).toFinset.card

/-- The distinct colors of a list in the order in which they first occur, after those of `seen` (first-seen order,
00_scope.md section 5). -/
def firstSeenFrom (seen : List Color) : List Color → List Color
  | [] => seen
  | c :: rest => if c ∈ seen then firstSeenFrom seen rest else firstSeenFrom (seen ++ [c]) rest

/-- The palette list P of a raster: its distinct colors in first-seen order (R173). -/
def firstSeen (ri : Memory) : List Color := firstSeenFrom [] (rasterColors ri)

/-- The palette position of a pixel: the position of its color in first-seen order (R173). -/
def palettePos (ri : Memory) (i : PixelIx) : Nat := (firstSeen ri).idxOf (pixelColor ri i)

/-- Every condition INJECT checks (R170). -/
def InjectReady (s : State) : Prop :=
  EmblemRaster s ∧ ValidLength s ∧ MagicPasses s ∧ distinctColors s.ri ≤ 256

/-! ## Save buffers -/

/-- The physical slot a pixel of a save buffer uses, `q_i = SlotPerm(SBRead8(36 + PixelPerm(i)))` (R185). -/
def usedSlot (P : Config.Perms) (sb : Memory) (i : PixelIx) : Slot := P.slot (slotOfByte (sb.read (indexOffset P i)))

/-- A canonical save buffer: each pixel's physical slot equals the first-seen position of its color in the raster the
buffer extracts to (R185, 00_scope.md section 5). -/
def Canonical (P : Config.Perms) (sb : Memory) : Prop :=
  ∀ i : PixelIx, (usedSlot P sb i).val = palettePos (.ofBytes (extractBytes P sb)) i

/-- The second form of R185's condition: the physical slots in order of first use are 0, 1, 2, ..., that is, a pixel's
slot was used by an earlier pixel or is the number of distinct slots used before it; and no two used slots hold equal
colors. -/
def SlotsInOrderOfFirstUse (P : Config.Perms) (sb : Memory) : Prop :=
  (∀ i : PixelIx, (∃ j, j < i ∧ usedSlot P sb j = usedSlot P sb i) ∨
    (usedSlot P sb i).val = ((Finset.univ.filter fun j : PixelIx => j < i).image (usedSlot P sb)).card) ∧
  (∀ i j : PixelIx, extractPixel P sb i = extractPixel P sb j → usedSlot P sb i = usedSlot P sb j)

/-- Two save buffers hold the same index block and the same palette block (R53, R54). -/
def SameBlocks (m n : Memory) : Prop := ∀ a, 36 ≤ a → a < 17444 → m.read a = n.read a

/-- Two rasters hold the same 65536 bytes. -/
def SameRaster (m n : Memory) : Prop := ∀ a, a < 65536 → m.read a = n.read a

/-! ## What a command depends on, and what it answers -/

/-- Two states agree on all a command's result may depend on: CONFIG, the save buffer and the raster (R2, R187). -/
def SameInputs (s t : State) : Prop :=
  s.config = t.config ∧ s.sbLen = t.sbLen ∧ s.sb = t.sb ∧ s.riDim = t.riDim ∧ s.ri = t.ri

/-- The registers a command names as its destinations (R30, R31). -/
def destsOf : Instr → List ResultReg
  | .mapPixel _ _ => [.res]
  | .unmapPixel _ _ => [.res]
  | .packColor _ _ _ _ => [.res]
  | .unpackColor _ => [.resR, .resG, .resB, .resA]
  | .mapSlot _ => [.res]
  | .unmapSlot _ => [.res]
  | .extract => [.res]
  | .inject => [.res]

/-- A result register in the register map (R23). -/
def ResultReg.hostReg : ResultReg → HostReg
  | .res => .res
  | .resR => .resR
  | .resG => .resG
  | .resB => .resB
  | .resA => .resA

/-- What a result register holds, as the host reads it: a 32-bit value, or none for "no value" (R23, R27). -/
def State.result (s : State) : ResultReg → Option Word
  | .res => s.res
  | .resR => s.resR.map (BitVec.setWidth 32)
  | .resG => s.resG.map (BitVec.setWidth 32)
  | .resB => s.resB.map (BitVec.setWidth 32)
  | .resA => s.resA.map (BitVec.setWidth 32)

/-- Every command's possible codes (R209). -/
def possibleCodes : Instr → List (BitVec 4)
  | .mapPixel _ _ => [0, 3]
  | .unmapPixel _ _ => [0, 3]
  | .packColor _ _ _ _ => [0]
  | .unpackColor _ => [0]
  | .mapSlot _ => [0, 3]
  | .unmapSlot _ => [0, 3]
  | .extract => [0, 1, 2]
  | .inject => [0, 5, 1, 2, 4]

end Sys2Proof.Machine
end

