-- ==== Sys2Proof/Certificates/Slice0/Obligations.lean ====
section
/-! DEFINITION. The statements for the provers. Each formalises rules of spec/ (OBLIGATIONS.json cites them). `Config.pixelPerm`
and `Config.slotPerm` are the block's two OPEN permutations, of which no proof can know more than that they are
bijections; statements over `P : Config.Perms` hold for every choice of both. -/

open Sys2Proof Sys2Proof.Machine

/-! ## Encoding -/

/-- R80 to R83: the words the encoder writes decode to the command they were written for, every operand at every value. -/
def Obligations.DecodeReadsBackEveryEncodedCommand : Prop :=
  ∀ i : Instr, i.wellFormed = true → decode (encode i) = .ok i

/-- R80, R85: no bit of a legal command word is dropped by the decoder. -/
def Obligations.EncodeReadsBackEveryLegalWord : Prop :=
  ∀ (w : CommandWord) (i : Instr), decode w = .ok i → encode i = w

/-- R84, R85: the decoder follows the match and mask table: a word selects a row exactly when it decodes to that row's
command, no word selects two rows, and a word that selects none is illegal. -/
def Obligations.DecodingFollowsMatchAndMask : Prop :=
  (∀ (w : CommandWord) (row : OpcodeRow), row ∈ opcodeRows →
    (row.selects w = true ↔ ∃ i, decode w = .ok i ∧ mnemonicOf i = row.mnemonic)) ∧
  (∀ (w : CommandWord) (r r' : OpcodeRow), r ∈ opcodeRows → r' ∈ opcodeRows →
    r.selects w = true → r'.selects w = true → r = r') ∧
  (∀ w : CommandWord, (∃ e, decode w = .error e) ↔ ∀ row ∈ opcodeRows, row.selects w = false)

/-- R86: a word is illegal exactly when its OPCODE (W[63:56]) is reserved or a field its format marks "must be 0" (OPB,
W[55:32]; OPA, W[31:0]) is nonzero. -/
def Obligations.IllegalExactlyWhenReservedOrNonzeroField : Prop :=
  ∀ (op : BitVec 8) (opb : BitVec 24) (opa : Word),
    (∃ e, decode (op ++ opb ++ opa) = .error e) ↔
      op.toNat = 0 ∨ (7 ≤ op.toNat ∧ op.toNat ≤ 15) ∨ 18 ≤ op.toNat ∨
      (3 ≤ op.toNat ∧ op.toNat ≤ 6 ∧ opb ≠ 0) ∨
      ((op.toNat = 16 ∨ op.toNat = 17) ∧ (opb ≠ 0 ∨ opa ≠ 0))

/-- 95_test_vectors.md section 3.1: some words of the decode table. -/
def Obligations.SampleWordsDecodeAsTheSpecListsThem : Prop :=
  decode 0x0100002400000001 = .ok (.mapPixel 1 36) ∧
  decode 0x0200002400000029 = .ok (.unmapPixel 41 36) ∧
  decode 0x0300000044332211 = .ok (.packColor 0x11 0x22 0x33 0x44) ∧
  decode 0x04000000FF000000 = .ok (.unpackColor 0xFF000000) ∧
  decode 0x0500000000000002 = .ok (.mapSlot 2) ∧
  decode 0x0600000000000002 = .ok (.unmapSlot 2) ∧
  decode 0x1000000000000000 = .ok .extract ∧
  decode 0x1100000000000000 = .ok .inject

/-! ## The address mapper -/

/-- R104, whole: MAP_PIXEL's encoding, its result `b + PixelPerm(i)` with no wrap, its error exactly when `i >= 16384`, and
nothing else changed. -/
def Obligations.MapPixelWritesBasePlusPixelPerm : Prop :=
  ∀ (i : Word) (b : BitVec 24) (s : State),
    decode (0x01#8 ++ b ++ i) = .ok (.mapPixel i b) ∧
    (∀ h : i.toNat < 16384, ∃ v : Word, v.toNat = b.toNat + (Config.pixelPerm ⟨i.toNat, h⟩).val ∧
      exec (.mapPixel i b) s = .next { s with res := some v, status := ⟨0, s.status.sticky⟩ }) ∧
    (16384 ≤ i.toNat → exec (.mapPixel i b) s = .next { s with res := none, status := ⟨3, true⟩ })

/-- R105, whole: UNMAP_PIXEL's encoding, its result `PixelPerm⁻¹(o - b)`, its error exactly when `o` is outside
`[b, b+16384)`, and nothing else changed. -/
def Obligations.UnmapPixelWritesInversePixelPerm : Prop :=
  ∀ (o : Word) (b : BitVec 24) (s : State),
    decode (0x02#8 ++ b ++ o) = .ok (.unmapPixel o b) ∧
    (∀ h : b.toNat ≤ o.toNat ∧ o.toNat - b.toNat < 16384, ∃ v : Word,
      v.toNat = (Config.pixelPerm.symm ⟨o.toNat - b.toNat, h.2⟩).val ∧
      exec (.unmapPixel o b) s = .next { s with res := some v, status := ⟨0, s.status.sticky⟩ }) ∧
    (o.toNat < b.toNat ∨ b.toNat + 16384 ≤ o.toNat →
      exec (.unmapPixel o b) s = .next { s with res := none, status := ⟨3, true⟩ })

/-- R106: MAP_PIXEL and UNMAP_PIXEL undo each other, in both directions, whatever the state each runs in. -/
def Obligations.MapPixelAndUnmapPixelUndoEachOther : Prop :=
  (∀ (i : Word) (b : BitVec 24) (s : State), i.toNat < 16384 →
    ∃ (o : Word) (t : State), exec (.mapPixel i b) s = .next t ∧ t.status.code = 0 ∧ t.res = some o ∧
      ∀ s' : State, ∃ t', exec (.unmapPixel o b) s' = .next t' ∧ t'.status.code = 0 ∧ t'.res = some i) ∧
  (∀ (o : Word) (b : BitVec 24) (s : State), b.toNat ≤ o.toNat → o.toNat < b.toNat + 16384 →
    ∃ (i : Word) (t : State), exec (.unmapPixel o b) s = .next t ∧ t.status.code = 0 ∧ t.res = some i ∧
      ∀ s' : State, ∃ t', exec (.mapPixel i b) s' = .next t' ∧ t'.status.code = 0 ∧ t'.res = some o)

/-- R107: the results of MAP_PIXEL with base 36 are pairwise distinct and are exactly the offsets 36 to 16419. -/
def Obligations.MapPixelHitsExactlyTheIndexBlock : Prop :=
  ∀ s : State, ∃ f : PixelIx → Word,
    (∀ i : PixelIx, ∃ t, exec (.mapPixel (BitVec.ofNat 32 i.val) 36) s = .next t ∧ t.res = some (f i)) ∧
    (∀ i j : PixelIx, i ≠ j → f i ≠ f j) ∧
    (∀ o : Word, (∃ i, f i = o) ↔ 36 ≤ o.toNat ∧ o.toNat < 16420)

/-! ## The color packer and the slot permutation -/

/-- R9: LE32 and LEBYTES32 as the rule defines them, and inverse to each other. -/
def Obligations.LittleEndianHelpersAreInverse : Prop :=
  (∀ b0 b1 b2 b3 : Byte,
    (le32 b0 b1 b2 b3).toNat = b0.toNat + 256 * b1.toNat + 65536 * b2.toNat + 16777216 * b3.toNat ∧
    leBytes32 (le32 b0 b1 b2 b3) = #v[b0, b1, b2, b3]) ∧
  (∀ w : Word, le32 (leBytes32 w)[0] (leBytes32 w)[1] (leBytes32 w)[2] (leBytes32 w)[3] = w)

/-- R121: unpack takes the four bytes of the word from the lowest up, pack and unpack are inverse bijections, and an entry's
bytes on disk are the channels in the order R, G, B, A. -/
def Obligations.PackAndUnpackAreInverse : Prop :=
  (∀ w : Word, (unpack w).r.toNat = w.toNat % 256 ∧ (unpack w).g.toNat = w.toNat / 256 % 256 ∧
    (unpack w).b.toNat = w.toNat / 65536 % 256 ∧ (unpack w).a.toNat = w.toNat / 16777216) ∧
  (∀ c : Color, unpack (pack c) = c) ∧ (∀ w : Word, pack (unpack w) = w) ∧
  (∀ c : Color, (leBytes32 (pack c)).toList = [c.r, c.g, c.b, c.a])

/-- R124, whole: PACK_COLOR's encoding (a nonzero OPB is illegal), its result `r + 256*g + 65536*b + 16777216*a`, which equals OPA, no error, and
nothing else changed. -/
def Obligations.PackColorWritesThePackedChannels : Prop :=
  (∀ (opb : BitVec 24) (opa : Word), opb ≠ 0 → ∃ e, decode (0x03#8 ++ opb ++ opa) = .error e) ∧
  ∀ (r g b a : Byte) (s : State), ∃ v : Word,
    v.toNat = r.toNat + 256 * g.toNat + 65536 * b.toNat + 16777216 * a.toNat ∧
    decode (0x03#8 ++ 0#24 ++ v) = .ok (.packColor r g b a) ∧
    exec (.packColor r g b a) s = .next { s with res := some v, status := ⟨0, s.status.sticky⟩ }

/-- R125, whole: UNPACK_COLOR's encoding (a nonzero OPB is illegal), its four channels, no error, RES and everything else unchanged. -/
def Obligations.UnpackColorWritesTheFourChannels : Prop :=
  (∀ (opb : BitVec 24) (opa : Word), opb ≠ 0 → ∃ e, decode (0x04#8 ++ opb ++ opa) = .error e) ∧
  ∀ (w : Word) (s : State), ∃ r g b a : Byte,
    r.toNat = w.toNat % 256 ∧ g.toNat = w.toNat / 256 % 256 ∧ b.toNat = w.toNat / 65536 % 256 ∧
    a.toNat = w.toNat / 16777216 ∧
    decode (0x04#8 ++ 0#24 ++ w) = .ok (.unpackColor w) ∧
    exec (.unpackColor w) s = .next { s with
      resR := some r, resG := some g, resB := some b, resA := some a, status := ⟨0, s.status.sticky⟩ }

/-- R133, whole: MAP_SLOT's encoding (a nonzero OPB is illegal), its result `SlotPerm(s)`, its error exactly when the operand is 256 or more, and
nothing else changed. -/
def Obligations.MapSlotWritesSlotPerm : Prop :=
  (∀ (opb : BitVec 24) (opa : Word), opb ≠ 0 → ∃ e, decode (0x05#8 ++ opb ++ opa) = .error e) ∧
  ∀ (ls : Word) (s : State),
    decode (0x05#8 ++ 0#24 ++ ls) = .ok (.mapSlot ls) ∧
    (∀ h : ls.toNat < 256, ∃ v : Word, v.toNat = (Config.slotPerm ⟨ls.toNat, h⟩).val ∧
      exec (.mapSlot ls) s = .next { s with res := some v, status := ⟨0, s.status.sticky⟩ }) ∧
    (256 ≤ ls.toNat → exec (.mapSlot ls) s = .next { s with res := none, status := ⟨3, true⟩ })

/-- R134, whole: UNMAP_SLOT's encoding (a nonzero OPB is illegal), its result `SlotPerm⁻¹(t)`, its error exactly when the operand is 256 or more, and
nothing else changed. -/
def Obligations.UnmapSlotWritesInverseSlotPerm : Prop :=
  (∀ (opb : BitVec 24) (opa : Word), opb ≠ 0 → ∃ e, decode (0x06#8 ++ opb ++ opa) = .error e) ∧
  ∀ (ps : Word) (s : State),
    decode (0x06#8 ++ 0#24 ++ ps) = .ok (.unmapSlot ps) ∧
    (∀ h : ps.toNat < 256, ∃ v : Word, v.toNat = (Config.slotPerm.symm ⟨ps.toNat, h⟩).val ∧
      exec (.unmapSlot ps) s = .next { s with res := some v, status := ⟨0, s.status.sticky⟩ }) ∧
    (256 ≤ ps.toNat → exec (.unmapSlot ps) s = .next { s with res := none, status := ⟨3, true⟩ })

/-- R135: MAP_SLOT's results are pairwise distinct and exactly [0,256), and MAP_SLOT and UNMAP_SLOT undo each other. -/
def Obligations.MapSlotIsABijectionUndoneByUnmapSlot : Prop :=
  (∀ s : State, ∃ f : Slot → Word,
    (∀ ls : Slot, ∃ t, exec (.mapSlot (BitVec.ofNat 32 ls.val)) s = .next t ∧ t.status.code = 0 ∧ t.res = some (f ls)) ∧
    (∀ i j : Slot, i ≠ j → f i ≠ f j) ∧ (∀ v : Word, (∃ ls, f ls = v) ↔ v.toNat < 256)) ∧
  (∀ (x : Word) (s : State), x.toNat < 256 →
    (∃ y t, exec (.mapSlot x) s = .next t ∧ t.res = some y ∧
      ∀ s' : State, ∃ t', exec (.unmapSlot y) s' = .next t' ∧ t'.status.code = 0 ∧ t'.res = some x) ∧
    (∃ y t, exec (.unmapSlot x) s = .next t ∧ t.res = some y ∧
      ∀ s' : State, ∃ t', exec (.mapSlot y) s' = .next t' ∧ t'.status.code = 0 ∧ t'.res = some x))

/-! ## EXTRACT -/

/-- R155, R156, R157: EXTRACT's encoding (a nonzero OPA or OPB is illegal) and its three ends: FormatError first, then
HeaderMismatch, with nothing changed but STATUS and RES; else a 128 by 128 raster of 65536 bytes whose pixel `i` is the
palette entry at `16420 + 4*SlotPerm(SBRead8(36 + PixelPerm(i)))`, RES = 65536, and nothing else changed. (`ri.wf` and
`ri.within 65536` say that the raster's list of cells is in the form the model chose for it and lists no offset beyond its
bytes: log 6, DESIGN CHOICE.) -/
def Obligations.ExtractChecksThenReplacesTheRaster : Prop :=
  decode (0x10#8 ++ 0#24 ++ 0#32) = .ok .extract ∧
  (∀ (opb : BitVec 24) (opa : Word), opb ≠ 0 ∨ opa ≠ 0 → ∃ e, decode (0x10#8 ++ opb ++ opa) = .error e) ∧
  ∀ s : State,
    (¬ ValidLength s → exec .extract s = .next { s with res := none, status := ⟨1, true⟩ }) ∧
    (ValidLength s → ¬ MagicPasses s → exec .extract s = .next { s with res := none, status := ⟨2, true⟩ }) ∧
    (ValidLength s → MagicPasses s → ∃ ri : Memory,
      exec .extract s = .next { s with
        ri := ri, riDim := ⟨128, 128⟩, res := some 65536, status := ⟨0, s.status.sticky⟩ } ∧
      ri.wf = true ∧ ri.within 65536 = true ∧
      ∀ (i : PixelIx) (k : Nat), k < 4 → ri.read (4 * i.val + k)
        = s.sb.read (16420 + 4 * (Config.slotPerm (slotOfByte (s.sb.read (36 + (Config.pixelPerm i).val)))).val + k))

/-- R158: a successful EXTRACT always leaves a raster of exactly 65536 bytes, RI_DIM = 0x00800080 and RES = 65536, and a
host that reads the raster back gets 65536 bytes. (That the raster is the list of cells these bytes give is the form the
model holds them in: log 6, DESIGN CHOICE.) -/
def Obligations.ExtractAlwaysGives65536Bytes : Prop :=
  ∀ s : State, ValidLength s → MagicPasses s → ∃ t, exec .extract s = .next t ∧
    t.riDim.word = 0x00800080#32 ∧ t.res = some 65536#32 ∧ t.riBytes.length = 65536 ∧
    t.ri = .ofBytes t.riBytes

/-- R159: EXTRACT's raster depends only on the index block and on the palette entries that the index bytes select, and holds
at most 256 distinct colors. -/
def Obligations.ExtractDependsOnlyOnIndexAndUsedEntries : Prop :=
  ∀ s t s' t' : State, exec .extract s = .next s' → exec .extract t = .next t' →
    s'.status.code = 0 → t'.status.code = 0 →
    (∀ a, 36 ≤ a → a < 16420 → s.sb.read a = t.sb.read a) →
    (∀ (i : PixelIx) (k : Nat), k < 4 →
      s.sb.read (16420 + 4 * (usedSlot Config.perms s.sb i).val + k)
        = t.sb.read (16420 + 4 * (usedSlot Config.perms s.sb i).val + k)) →
    s'.ri = t'.ri ∧ distinctColors s'.ri ≤ 256

/-! ## INJECT -/

/-- R175, R177, R178, R181, R182's first sentence: INJECT's encoding and its success: RES is the number of distinct colors; the
index byte of pixel `i` is `SlotPerm⁻¹` of its palette position; entry `p` of the palette holds the color first seen in
place `p`; the entries not used, the header and the tail keep their bytes; nothing else changes. -/
def Obligations.InjectWritesIndexAndPaletteBlocks : Prop :=
  decode (0x11#8 ++ 0#24 ++ 0#32) = .ok .inject ∧
  (∀ (opb : BitVec 24) (opa : Word), opb ≠ 0 ∨ opa ≠ 0 → ∃ e, decode (0x11#8 ++ opb ++ opa) = .error e) ∧
  ∀ s : State, InjectReady s → ∃ (sb : Memory) (n : Word), n.toNat = distinctColors s.ri ∧
    exec .inject s = .next { s with sb := sb, res := some n, status := ⟨0, s.status.sticky⟩ } ∧
    (∀ i : PixelIx, palettePos s.ri i < 256 ∧
      ∀ p : Slot, p.val = palettePos s.ri i →
        sb.read (36 + (Config.pixelPerm i).val) = byteOfSlot (Config.slotPerm.symm p)) ∧
    (∀ i : PixelIx, ∀ k, k < 4 →
      sb.read (16420 + 4 * palettePos s.ri i + k) = s.ri.read (4 * i.val + k)) ∧
    (∀ a, 16420 + 4 * distinctColors s.ri ≤ a → a < 17444 → sb.read a = s.sb.read a) ∧
    (∀ a, ¬ (36 ≤ a ∧ a < 17444) → sb.read a = s.sb.read a)

/-- R170, R180, R184: INJECT's errors in their order, each leaving everything as it was but STATUS and RES: SizeError, then
FormatError, then HeaderMismatch, then CapacityExceeded for more than 256 distinct colors; when no check fails it succeeds. -/
def Obligations.InjectFailsInOrderAndChangesNothing : Prop :=
  ∀ s : State,
    (¬ EmblemRaster s → exec .inject s = .next { s with res := none, status := ⟨5, true⟩ }) ∧
    (EmblemRaster s → ¬ ValidLength s → exec .inject s = .next { s with res := none, status := ⟨1, true⟩ }) ∧
    (EmblemRaster s → ValidLength s → ¬ MagicPasses s →
      exec .inject s = .next { s with res := none, status := ⟨2, true⟩ }) ∧
    (EmblemRaster s → ValidLength s → MagicPasses s → 256 < distinctColors s.ri →
      exec .inject s = .next { s with res := none, status := ⟨4, true⟩ }) ∧
    (InjectReady s → ∃ t, exec .inject s = .next t ∧ t.status.code = 0)

/-- R182: after a successful INJECT every index byte selects a physical slot below `|P|`, and whatever the entries of the
other slots hold, a following EXTRACT computes the same raster. -/
def Obligations.UnusedPaletteEntriesAreUnobservable : Prop :=
  ∀ (P : Config.Perms) (s : State), InjectReady s → ∃ t, injectWith P s = .next t ∧
    (∀ i : PixelIx, (usedSlot P t.sb i).val < distinctColors s.ri) ∧
    (∀ a, 16420 + 4 * distinctColors s.ri ≤ a → a < 17444 → t.sb.read a = s.sb.read a) ∧
    (∀ m : Memory, (∀ a, a < 16420 + 4 * distinctColors s.ri → m.read a = t.sb.read a) →
      extractBytes P m = extractBytes P t.sb)

/-! ## The laws of the composition layer -/

/-- R183: the round trip. For every PixelPerm and SlotPerm, INJECT of a raster of at most 256 distinct colors succeeds and a
following EXTRACT gives that raster back exactly; so does the block itself. -/
def Obligations.InjectThenExtractGivesTheRasterBack : Prop :=
  (∀ (P : Config.Perms) (s : State), InjectReady s →
    ∃ t u, injectWith P s = .next t ∧ t.status.code = 0 ∧ extractWith P t = .next u ∧ u.status.code = 0 ∧
      u.riDim = s.riDim ∧ SameRaster u.ri s.ri) ∧
  (∀ s : State, InjectReady s →
    ∃ t u, exec .inject s = .next t ∧ t.status.code = 0 ∧ exec .extract t = .next u ∧ u.status.code = 0 ∧
      u.riDim = s.riDim ∧ SameRaster u.ri s.ri)

/-- R185 (a), (b) and (c): a no-op edit. INJECT of an extracted raster always succeeds; a second EXTRACT gives the same
raster; the index and palette blocks come out as they were exactly when the buffer is canonical. -/
def Obligations.NoOpEditKeepsBlocksExactlyWhenCanonical : Prop :=
  ∀ (P : Config.Perms) (s : State), ExtractReady s →
    ∃ t u v, extractWith P s = .next t ∧ injectWith P t = .next u ∧ extractWith P u = .next v ∧
      t.status.code = 0 ∧ u.status.code = 0 ∧ v.status.code = 0 ∧
      SameRaster v.ri t.ri ∧ (SameBlocks u.sb s.sb ↔ Canonical P s.sb)

/-- R185, its last sentence: a buffer written by a successful INJECT is always canonical. -/
def Obligations.InjectedBuffersAreCanonical : Prop :=
  ∀ (P : Config.Perms) (s : State), InjectReady s → ∃ t, injectWith P s = .next t ∧ Canonical P t.sb

/-- R185, its second form of the condition: a buffer is canonical exactly when its physical slots in order of first use are
0, 1, 2, ... and no two used slots hold equal colors. -/
def Obligations.CanonicalMeansSlotsInOrderOfFirstUse : Prop :=
  ∀ (P : Config.Perms) (sb : Memory), Canonical P sb ↔ SlotsInOrderOfFirstUse P sb

/-- R186: the all-black, fully opaque raster: RES = 1, every index byte is `SlotPerm⁻¹(0)`, entry 0 unpacks to
(0,0,0,255), and the index block is all zero exactly when SlotZeroFixed holds. -/
def Obligations.AllBlackRasterScenario : Prop :=
  ∀ (P : Config.Perms) (s : State), EmblemRaster s → ValidLength s → MagicPasses s →
    (∀ i : PixelIx, pixelColor s.ri i = ⟨0, 0, 0, 255⟩) →
    ∃ t, injectWith P s = .next t ∧ t.status.code = 0 ∧ t.res = some 1 ∧
      (∀ i : PixelIx, t.sb.read (36 + (P.pixel i).val) = byteOfSlot (P.slot.symm 0)) ∧
      palRead t.sb 0 = ⟨0, 0, 0, 255⟩ ∧
      ((∀ a, 36 ≤ a → a < 16420 → t.sb.read a = 0) ↔ P.SlotZeroFixed)

/-- R38, R101, R131: the meanings take the block's own permutations, the same for every command. -/
def Obligations.EveryCommandTakesTheBlocksPermutations : Prop :=
  ∀ s : State,
    (∀ i b, exec (.mapPixel i b) s = mapPixelWith ⟨Config.pixelPerm, Config.slotPerm⟩ i b s) ∧
    (∀ o b, exec (.unmapPixel o b) s = unmapPixelWith ⟨Config.pixelPerm, Config.slotPerm⟩ o b s) ∧
    (∀ w, exec (.mapSlot w) s = mapSlotWith ⟨Config.pixelPerm, Config.slotPerm⟩ w s) ∧
    (∀ w, exec (.unmapSlot w) s = unmapSlotWith ⟨Config.pixelPerm, Config.slotPerm⟩ w s) ∧
    exec .extract s = extractWith ⟨Config.pixelPerm, Config.slotPerm⟩ s ∧
    exec .inject s = injectWith ⟨Config.pixelPerm, Config.slotPerm⟩ s

/-! ## Every command: errors, results, frames -/

/-- R209: every command always ends, with one of the codes the table lists for it; in particular no command ever leaves a
buffer (R11). -/
def Obligations.EveryCommandEndsWithAListedCode : Prop :=
  ∀ (i : Instr) (s : State), ∃ t, exec i s = .next t ∧ t.status.code ∈ possibleCodes i

/-- R210: after an error the state is the state before the command except for STATUS and the registers the command names as
its destinations, which hold no value. -/
def Obligations.ErrorsArePrecise : Prop :=
  ∀ (i : Instr) (s t : State), exec i s = .next t → t.status.code ≠ 0 →
    t = { s with
      status := ⟨t.status.code, true⟩
      res := if ResultReg.res ∈ destsOf i then none else s.res
      resR := if ResultReg.resR ∈ destsOf i then none else s.resR
      resG := if ResultReg.resG ∈ destsOf i then none else s.resG
      resB := if ResultReg.resB ∈ destsOf i then none else s.resB
      resA := if ResultReg.resA ∈ destsOf i then none else s.resA }

/-- R27: when a result register holds a value: not after reset; after a command that names it, exactly when the command
succeeded; a command that does not name it leaves it; and a host read of "no value" is a fault. -/
def Obligations.ResultRegistersHoldValuesAsRuled : Prop :=
  (∀ r : ResultReg, State.reset.result r = none) ∧
  (∀ (i : Instr) (s t : State) (r : ResultReg), exec i s = .next t →
    (r ∈ destsOf i → ((t.result r).isSome = true ↔ t.status.code = 0)) ∧ (r ∉ destsOf i → t.result r = s.result r)) ∧
  (∀ (s : State) (r : ResultReg) (rest : List HostAction), s.pending = .rd 32 r.hostReg.offset :: rest →
    (s.result r = none → step s = .fault (.noValue r)) ∧
    (∀ v, s.result r = some v → step s = .next { s.takeAction rest with reply := some (.word v) }))

/-- R211, R28: a command that succeeds leaves STICKY, one that fails sets it. -/
def Obligations.StickyRecordsEveryFailure : Prop :=
  ∀ (i : Instr) (s t : State), exec i s = .next t →
    (t.status.code = 0 → t.status.sticky = s.status.sticky) ∧ (t.status.code ≠ 0 → t.status.sticky = true)

/-- R28, "Only reset clears STICKY": the only step after which STICKY is 0 where it was 1 is a RESET. -/
def Obligations.OnlyResetClearsSticky : Prop :=
  ∀ s t : State, step s = .next t → s.status.sticky = true → t.status.sticky = false →
    ∃ rest, s.pending = .reset :: rest

/-- R25, R26, R29, R32, R33, R35, R181: what no command writes. CMD_A, CMD_HI, CONFIG, SB_LEN and the host's own state never
change; the raster and RI_DIM change only in EXTRACT, the save buffer only in INJECT. -/
def Obligations.CommandsWriteOnlyTheirOwnState : Prop :=
  ∀ (i : Instr) (s t : State), exec i s = .next t →
    t.cmdA = s.cmdA ∧ t.cmdHi = s.cmdHi ∧ t.config = s.config ∧ t.sbLen = s.sbLen ∧
    t.pending = s.pending ∧ t.hostIndex = s.hostIndex ∧ t.reply = s.reply ∧
    (i ≠ .extract → t.ri = s.ri ∧ t.riDim = s.riDim) ∧ (i ≠ .inject → t.sb = s.sb)

/-- R56: no command ever writes a byte of the save buffer outside the index block and the palette block. -/
def Obligations.HeaderAndTailAreNeverWritten : Prop :=
  ∀ (i : Instr) (s t : State) (a : Nat), exec i s = .next t → (a < 36 ∨ 17444 ≤ a) → t.sb.read a = s.sb.read a

/-- R2, R187: a command's results are a function of the command, CONFIG, the save buffer and the raster alone. -/
def Obligations.ResultsDependOnlyOnTheInputs : Prop :=
  ∀ (i : Instr) (s t : State), SameInputs s t →
    ∃ s' t', exec i s = .next s' ∧ exec i t = .next t' ∧ s'.status.code = t'.status.code ∧
      (∀ r ∈ destsOf i, s'.result r = t'.result r) ∧ SameInputs s' t'

/-! ## Launching, the host port and the assembler -/

/-- R26, R85: a step whose action writes CMD_HI stores it and runs the command that CMD_HI and CMD_A decode to; the model
moves the host index past the action first. -/
def Obligations.StepRunsTheLaunchedCommand : Prop :=
  ∀ (s : State) (v : Word) (rest : List HostAction) (i : Instr), s.pending = .wr 32 0x04 v :: rest →
    decode (v ++ s.cmdA) = .ok i → i.wellFormed = true →
    step s = exec i { s with cmdHi := v, pending := rest, hostIndex := s.hostIndex + 1, reply := none }

/-- R86, R208: launching an illegal word records IllegalCommand (7) and STICKY, and changes no buffer and no result register. -/
def Obligations.IllegalWordOnlyRecordsIllegalCommand : Prop :=
  ∀ (s : State) (v : Word) (rest : List HostAction) (e : DecodeError), s.pending = .wr 32 0x04 v :: rest →
    decode (v ++ s.cmdA) = .error e →
    step s = .next { s with
      cmdHi := v, status := ⟨7, true⟩, pending := rest, hostIndex := s.hostIndex + 1, reply := none }

/-- R88: every command line expands to a write of CMD_A with OPA, then a write of CMD_HI with `(OPCODE << 24) | OPB`; two
steps perform them, and the second runs the command. -/
def Obligations.CommandLineRunsInTwoWrites : Prop :=
  ∀ (i : Instr) (s : State) (rest : List HostAction),
    commandActions i = [.wr 32 0x00 (opaFor i), .wr 32 0x04 (opcodeFor i ++ opbFor i)] ∧
    (s.pending = commandActions i ++ rest →
      core.run 2 s = exec i { s with
        cmdA := opaFor i, cmdHi := opcodeFor i ++ opbFor i, pending := rest, hostIndex := s.hostIndex + 2, reply := none })

/-- R87: an operand too wide for its field is refused by the assembler, not truncated: an accepted line launches a command
with exactly the numbers the line writes, and a line with one too wide is refused. A line whose operands fit their fields
always assembles, to the writes of its command, whether or not the command will accept the values; EXTRACT and INJECT always
do. -/
def Obligations.AssemblerNeverTruncatesAnOperand : Prop :=
  (∀ a b acts, assemble (.mapPixel a b) = some acts →
    ∃ (i : Word) (d : BitVec 24), i.toNat = a ∧ d.toNat = b ∧ acts = commandActions (.mapPixel i d)) ∧
  (∀ a b acts, assemble (.unmapPixel a b) = some acts →
    ∃ (o : Word) (d : BitVec 24), o.toNat = a ∧ d.toNat = b ∧ acts = commandActions (.unmapPixel o d)) ∧
  (∀ r g b a acts, assemble (.packColor r g b a) = some acts → ∃ r' g' b' a' : Byte,
    r'.toNat = r ∧ g'.toNat = g ∧ b'.toNat = b ∧ a'.toNat = a ∧ acts = commandActions (.packColor r' g' b' a')) ∧
  (∀ n acts, assemble (.unpackColor n) = some acts → ∃ w : Word, w.toNat = n ∧ acts = commandActions (.unpackColor w)) ∧
  (∀ n acts, assemble (.mapSlot n) = some acts → ∃ w : Word, w.toNat = n ∧ acts = commandActions (.mapSlot w)) ∧
  (∀ n acts, assemble (.unmapSlot n) = some acts → ∃ w : Word, w.toNat = n ∧ acts = commandActions (.unmapSlot w)) ∧
  (∀ a b, 2 ^ 32 ≤ a ∨ 2 ^ 24 ≤ b → assemble (.mapPixel a b) = none ∧ assemble (.unmapPixel a b) = none) ∧
  (∀ r g b a, 2 ^ 8 ≤ r ∨ 2 ^ 8 ≤ g ∨ 2 ^ 8 ≤ b ∨ 2 ^ 8 ≤ a → assemble (.packColor r g b a) = none) ∧
  (∀ n, 2 ^ 32 ≤ n → assemble (.unpackColor n) = none ∧ assemble (.mapSlot n) = none ∧ assemble (.unmapSlot n) = none) ∧
  (∀ a b, a < 2 ^ 32 → b < 2 ^ 24 →
    assemble (.mapPixel a b) = some (commandActions (.mapPixel (BitVec.ofNat 32 a) (BitVec.ofNat 24 b))) ∧
    assemble (.unmapPixel a b) = some (commandActions (.unmapPixel (BitVec.ofNat 32 a) (BitVec.ofNat 24 b)))) ∧
  (∀ r g b a : Byte, assemble (.packColor r.toNat g.toNat b.toNat a.toNat) = some (commandActions (.packColor r g b a))) ∧
  (∀ w : Word,
    assemble (.unpackColor w.toNat) = some (commandActions (.unpackColor w)) ∧
    assemble (.mapSlot w.toNat) = some (commandActions (.mapSlot w)) ∧
    assemble (.unmapSlot w.toNat) = some (commandActions (.unmapSlot w))) ∧
  assemble .extract = some (commandActions .extract) ∧ assemble .inject = some (commandActions .inject)

/-- R89: the pseudo-instructions and their expansions. -/
def Obligations.PseudoInstructionsExpandAsListed : Prop :=
  (∀ i, assemble (.mapPixelDefault i) = assemble (.mapPixel i 36)) ∧
  (∀ o, assemble (.unmapPixelDefault o) = assemble (.unmapPixel o 36)) ∧
  (∀ x y, assemble (.mapXY x y) = if x ≤ 127 ∧ y ≤ 127 then assemble (.mapPixel (y * 128 + x) 36) else none) ∧
  (∀ hi lo : Word, assemble (.launch (hi ++ lo).toNat) = some [.wr 32 0x00 lo, .wr 32 0x04 hi])

/-- R23, R28, R29, R31, R33: what a read of each register returns, its fields in their places and every reserved bit 0. -/
def Obligations.RegisterReadsReturnTheirFields : Prop :=
  ∀ (s : State) (rest : List HostAction) (offset : Nat), s.pending = .rd 32 offset :: rest →
    (offset = 0x00 → step s = .next { s.takeAction rest with reply := some (.word s.cmdA) }) ∧
    (offset = 0x04 → step s = .next { s.takeAction rest with reply := some (.word s.cmdHi) }) ∧
    (offset = 0x08 → ∃ v : Word, v.toNat = s.status.code.toNat + (if s.status.sticky then 256 else 0) ∧
      step s = .next { s.takeAction rest with reply := some (.word v) }) ∧
    (offset = 0x0C → ∃ v : Word, v.toNat = (if s.config.enforceMagic then 1 else 0) ∧
      step s = .next { s.takeAction rest with reply := some (.word v) }) ∧
    (offset = 0x10 → ∀ v, s.res = some v → step s = .next { s.takeAction rest with reply := some (.word v) }) ∧
    (∀ c : Byte, (offset = 0x14 ∧ s.resR = some c) ∨ (offset = 0x18 ∧ s.resG = some c) ∨
      (offset = 0x1C ∧ s.resB = some c) ∨ (offset = 0x20 ∧ s.resA = some c) → ∃ v : Word, v.toNat = c.toNat ∧
      step s = .next { s.takeAction rest with reply := some (.word v) }) ∧
    (offset = 0x24 → step s = .next { s.takeAction rest with reply := some (.word s.sbLen) }) ∧
    (offset = 0x28 → ∃ v : Word, v.toNat = s.riDim.w.toNat + 65536 * s.riDim.h.toNat ∧
      step s = .next { s.takeAction rest with reply := some (.word v) })

/-- R24, R25, R29: register writes. CMD_A is stored and launches nothing; CONFIG keeps bit 0 of what is written; a write to a
read-only register changes nothing; an access of another width or at an unlisted offset is refused. -/
def Obligations.RegisterWritesFollowTheMap : Prop :=
  ∀ (s : State) (rest : List HostAction) (bits offset : Nat) (v : Word),
    (s.pending = .wr bits offset v :: rest →
      (bits = 32 → offset = 0x00 → step s = .next { s.takeAction rest with cmdA := v }) ∧
      (bits = 32 → offset = 0x0C → step s = .next { s.takeAction rest with config := ⟨decide (v.toNat % 2 = 1)⟩ }) ∧
      (bits = 32 → offset ∈ [0x08, 0x10, 0x14, 0x18, 0x1C, 0x20, 0x24, 0x28] → step s = .next (s.takeAction rest)) ∧
      (bits ≠ 32 ∨ 0x2C ≤ offset ∨ offset % 4 ≠ 0 → step s = .refused (.registerAccess bits offset))) ∧
    (s.pending = .rd bits offset :: rest → bits ≠ 32 ∨ 0x2C ≤ offset ∨ offset % 4 ≠ 0 →
      step s = .refused (.registerAccess bits offset))

/-- R240, R242: the exact next state of ATTACH_SB, ATTACH_RI, READ_SB and READ_RI from every state. An attach replaces its
buffer by the bytes given and sets its length register; a read answers the buffer's current bytes, whatever command or attach
left them; no other register or buffer changes. So a buffer attached and read back is the bytes attached. (That the host's
index moves and its reply is kept or emptied so are the model's form: logs 1, 10; the form of the list of cells: log 6.) -/
def Obligations.AttachedBuffersReadBack : Prop :=
  (∀ (s : State) (bytes : List Byte) (rest : List HostAction), bytes.length < 2 ^ 32 →
    s.pending = .attachSb bytes :: rest → ∃ (sb : Memory) (n : Word), n.toNat = bytes.length ∧
      sb.wf = true ∧ sb.within bytes.length = true ∧ (∀ (k : Nat) (h : k < bytes.length), sb.read k = bytes[k]) ∧
      step s = .next { s with sb := sb, sbLen := n, pending := rest, hostIndex := s.hostIndex + 1, reply := none }) ∧
  (∀ (s : State) (w h : BitVec 16) (bytes : List Byte) (rest : List HostAction),
    bytes.length = w.toNat * h.toNat * 4 → s.pending = .attachRi w.toNat h.toNat bytes :: rest → ∃ ri : Memory,
      ri.wf = true ∧ ri.within bytes.length = true ∧ (∀ (k : Nat) (h : k < bytes.length), ri.read k = bytes[k]) ∧
      step s = .next { s with
        ri := ri, riDim := ⟨w, h⟩, pending := rest, hostIndex := s.hostIndex + 1, reply := none }) ∧
  (∀ (s : State) (rest : List HostAction), s.pending = .readSb :: rest → ∃ bytes : List Byte,
    bytes.length = s.sbLen.toNat ∧ (∀ (k : Nat) (h : k < bytes.length), bytes[k] = s.sb.read k) ∧
    step s = .next { s with
      pending := rest, hostIndex := s.hostIndex + 1, reply := some (.saveBuffer bytes) }) ∧
  (∀ (s : State) (rest : List HostAction), s.pending = .readRi :: rest → ∃ bytes : List Byte,
    bytes.length = s.riDim.w.toNat * s.riDim.h.toNat * 4 ∧
    (∀ (k : Nat) (h : k < bytes.length), bytes[k] = s.ri.read k) ∧
    step s = .next { s with
      pending := rest, hostIndex := s.hostIndex + 1, reply := some (.raster s.riDim bytes) }) ∧
  (∀ (s : State) (bytes : List Byte) (rest : List HostAction), bytes.length < 2 ^ 32 →
    s.pending = .attachSb bytes :: .readSb :: rest →
    ∃ t, core.run 2 s = .next t ∧ t.reply = some (.saveBuffer bytes) ∧ t.sbLen.toNat = bytes.length ∧
      t.riDim = s.riDim ∧ t.ri = s.ri ∧ t.status = s.status) ∧
  (∀ (s : State) (w h : BitVec 16) (bytes : List Byte) (rest : List HostAction),
    bytes.length = w.toNat * h.toNat * 4 → s.pending = .attachRi w.toNat h.toNat bytes :: .readRi :: rest →
    ∃ t, core.run 2 s = .next t ∧ t.reply = some (.raster ⟨w, h⟩ bytes) ∧ t.riDim = ⟨w, h⟩ ∧
      t.sbLen = s.sbLen ∧ t.sb = s.sb ∧ t.status = s.status)

/-- R24, R240, R241, R244: a step is refused exactly when the host's action has no meaning. -/
def Obligations.RefusedExactlyWhenTheActionHasNoMeaning : Prop :=
  ∀ (s : State) (a : HostAction) (rest : List HostAction), s.pending = a :: rest →
    ((∃ r, step s = .refused r) ↔ a.wellFormed = false)

/-- R11, R27: the only fault a step can end in is a host read of a result register that holds no value; no command ever
reaches outside a buffer. -/
def Obligations.OnlyReadsOfNoValueFault : Prop :=
  ∀ (s : State) (f : Fault), step s = .fault f →
    ∃ (r : ResultReg) (rest : List HostAction), f = .noValue r ∧ s.result r = none ∧
      s.pending = .rd 32 r.hostReg.offset :: rest

/-- R222, R232, R245: the host index advances by one per action; STOP_IF_ERROR ends the program exactly when CODE is not 0.
Of this the model's own choices are: that a step past the end changes nothing (log 2); that a STOP_IF_ERROR that fires drops
the actions still to come and that the index moves past it (log 8, DESIGN CHOICE); and that RESET, like every other action,
keeps the rest of the program and moves the index on (log 9, DESIGN CHOICE). -/
def Obligations.ProgramStepsByTheHostIndex : Prop :=
  (∀ s : State, s.pending = [] → step s = .next s) ∧
  (∀ (s t : State) (a : HostAction) (rest : List HostAction), s.pending = a :: rest → step s = .next t →
    t.hostIndex = s.hostIndex + 1 ∧
    (a ≠ .stopIfError → t.pending = rest) ∧
    (a = .stopIfError → t = { s.takeAction rest with pending := if s.status.code = 0 then rest else [] }))

/-- The model's own placing of a command (log 12): the very next step runs exactly it, with CMD_A and CMD_HI its halves. -/
def Obligations.PlacedCommandRunsNext : Prop :=
  ∀ (i : Instr) (s : State),
    step (s.withFetchWord 64 (encode i).toNat) = exec i { s with
      cmdA := opaFor i, cmdHi := opcodeFor i ++ opbFor i, hostIndex := s.hostIndex + 1, reply := none }

/-! ## Reset -/

/-- R230: what reset leaves in every register and both buffers. -/
def Obligations.ResetLeavesTheRuledValues : Prop :=
  let s := State.reset
  s.cmdA = 0 ∧ s.cmdHi = 0 ∧ s.status.word = 0 ∧ s.config.word = 0 ∧ s.res = none ∧ s.resR = none ∧ s.resG = none ∧
  s.resB = none ∧ s.resA = none ∧ s.sbLen = 0 ∧ s.sbBytes = [] ∧ s.riDim.word = 0 ∧ s.riBytes = []

/-- R230, R231, R232: the host action RESET puts every register and both buffers at their reset values and launches no
command; after it EXTRACT fails with FormatError and INJECT with SizeError. (That the host's program and index stay is the
model's choice, log 9.) -/
def Obligations.ResetActionDetachesAndLaunchesNothing : Prop :=
  ∀ (s : State) (rest : List HostAction), s.pending = .reset :: rest →
    ∃ t, step s = .next t ∧
      t = { State.reset with pending := rest, hostIndex := s.hostIndex + 1, reply := none } ∧
      exec .extract t = .next { t with status := ⟨1, true⟩ } ∧ exec .inject t = .next { t with status := ⟨5, true⟩ }

/-! ## Invariants -/

/-- Every step keeps both buffers' lists of cells in the form the model chose for them (log 6, DESIGN CHOICE: offsets strictly
rising, no zero byte listed; not R185's canonical save buffer), and inside the lengths R34 and R35 give the buffers, SB_LEN
and `RI_W*RI_H*4`. -/
def Obligations.StepKeepsTheBufferListsSortedNonzeroAndInside : Prop :=
  ∀ s t : State, BuffersInv s → step s = .next t → BuffersInv t

/-- At reset both buffers are empty (R230), so their lists of cells are in the form of log 6 (DESIGN CHOICE; not R185's
canonical save buffer) and inside their lengths. -/
def Obligations.ResetBufferListsAreSortedNonzeroAndInside : Prop := BuffersInv State.reset

/-- R28, R200, R207: every step keeps STATUS legal: CODE is 0 to 5 or 7, and STICKY is 1 when CODE is nonzero. -/
def Obligations.StepKeepsStatusLegal : Prop :=
  ∀ s t : State, StatusInv s → step s = .next t → StatusInv t

/-- R230: STATUS is legal at reset. -/
def Obligations.ResetStatusIsLegal : Prop := StatusInv State.reset
end

