-- ==== Sys2Proof/Laws/Memory.lean ====
section
/-! SUPPORT. The laws of a buffer: read after write, the list form of log 6, and equal reads make equal buffers. -/

namespace Sys2Proof.Machine

/-! ## Reading a list of cells -/

theorem readCells_append (xs ys : List Host.Cell) (a : Nat) :
    readCells (xs ++ ys) a = if a ∈ xs.map Prod.fst then readCells xs a else readCells ys a := by
  induction xs with
  | nil => simp
  | cons c xs ih =>
    obtain ⟨k, v⟩ := c
    by_cases h : k = a
    · simp [readCells, h]
    · have h' : ¬ a = k := fun e => h e.symm
      simp [readCells, h, h', ih]

theorem readCells_filter (p : Nat → Bool) (xs : List Host.Cell) (a : Nat) :
    readCells (xs.filter fun c => p c.1) a = if p a then readCells xs a else Config.blankByte := by
  induction xs with
  | nil => simp [readCells]
  | cons c xs ih =>
    obtain ⟨k, v⟩ := c
    by_cases h : k = a
    · subst h
      cases hp : p k <;> simp_all [readCells]
    · cases hp : p k <;> simp_all [readCells]

theorem readCells_of_notMem (xs : List Host.Cell) (a : Nat) (h : a ∉ xs.map Prod.fst) :
    readCells xs a = Config.blankByte := by
  have := readCells_append xs [] a
  simpa [h, readCells] using this

theorem readCells_cellsFrom (bs : List Byte) (b a : Nat) :
    readCells (cellsFrom b bs) a = if b ≤ a ∧ a < b + bs.length then bs.getD (a - b) 0 else Config.blankByte := by
  induction bs generalizing b with
  | nil => simp [cellsFrom, readCells]
  | cons v bs ih =>
    have rest := ih (b + 1)
    have val : readCells (cellsFrom b (v :: bs)) a = if b = a then v else readCells (cellsFrom (b + 1) bs) a := by
      by_cases hv : v = Config.blankByte
      · by_cases hba : b = a
        · have : ¬ (b + 1 ≤ a ∧ a < b + 1 + bs.length) := by omega
          rw [if_neg this] at rest
          simp [cellsFrom, hv, rest]
        · simp [cellsFrom, hv, hba]
      · simp [cellsFrom, hv, readCells]
    rw [val, rest]
    by_cases hba : b = a
    · subst hba; simp
    · by_cases hin : b + 1 ≤ a ∧ a < b + 1 + bs.length
      · have h1 : b ≤ a ∧ a < b + (v :: bs).length := by simp; omega
        obtain ⟨d, rfl⟩ : ∃ d, a = b + 1 + d := ⟨a - (b + 1), by omega⟩
        have h2 : b + 1 + d - b = d + 1 := by omega
        have h3 : b + 1 + d - (b + 1) = d := by omega
        rw [if_neg hba, if_pos hin, if_pos h1, h2, h3, List.getD_cons_succ]
      · have h1 : ¬ (b ≤ a ∧ a < b + (v :: bs).length) := by simp; omega
        rw [if_neg hba, if_neg hin, if_neg h1]

theorem mem_keys_cellsFrom (bs : List Byte) (b a : Nat) (h : a ∈ (cellsFrom b bs).map Prod.fst) :
    b ≤ a ∧ a < b + bs.length := by
  induction bs generalizing b with
  | nil => simp [cellsFrom] at h
  | cons v bs ih =>
    by_cases hv : v = Config.blankByte
    · simp only [cellsFrom, hv, if_true] at h
      have := ih (b + 1) h
      simp; omega
    · simp only [cellsFrom, hv, if_false, List.map_cons, List.mem_cons] at h
      rcases h with rfl | h
      · simp
      · have := ih (b + 1) h
        simp; omega

/-! ## Reading a buffer -/

@[simp] theorem Memory.read_empty (a : Nat) : Memory.empty.read a = Config.blankByte := rfl

/-- What an attached or extracted buffer reads: its bytes, and the blank byte beyond them. -/
theorem Memory.read_ofBytes (bs : List Byte) (a : Nat) :
    (Memory.ofBytes bs).read a = if a < bs.length then bs.getD a 0 else Config.blankByte := by
  have := readCells_cellsFrom bs 0 a
  simpa [Memory.read, Memory.ofBytes] using this

/-- Read after write: the bytes of the run inside it, the old bytes outside it. -/
theorem Memory.read_writeRange (m : Memory) (b : Nat) (bs : List Byte) (a : Nat) :
    (m.writeRange b bs).read a = if b ≤ a ∧ a < b + bs.length then bs.getD (a - b) 0 else m.read a := by
  have hlow : readCells (m.cells.filter fun c => decide (c.1 < b)) a
      = if decide (a < b) then readCells m.cells a else Config.blankByte :=
    readCells_filter (fun k => decide (k < b)) m.cells a
  have hhigh : readCells (m.cells.filter fun c => decide (b + bs.length ≤ c.1)) a
      = if decide (b + bs.length ≤ a) then readCells m.cells a else Config.blankByte :=
    readCells_filter (fun k => decide (b + bs.length ≤ k)) m.cells a
  have hmid := readCells_cellsFrom bs b a
  simp only [Memory.read, Memory.writeRange, List.append_assoc]
  rw [readCells_append]
  split
  · rename_i hmem
    have hab : a < b := by
      simp only [List.mem_map, List.mem_filter, decide_eq_true_eq] at hmem
      obtain ⟨c, ⟨_, hc⟩, rfl⟩ := hmem
      exact hc
    have : ¬ (b ≤ a ∧ a < b + bs.length) := by omega
    rw [hlow, if_neg this]; simp [hab]
  · rename_i hnot
    rw [readCells_append]
    have hlow' := readCells_of_notMem _ a hnot
    split
    · rename_i hmem
      rw [hmid, if_pos (mem_keys_cellsFrom bs b a hmem), if_pos (mem_keys_cellsFrom bs b a hmem)]
    · rename_i hnot2
      have hmid' := readCells_of_notMem _ a hnot2
      rw [hmid] at hmid'
      rw [hhigh]
      by_cases hin : b ≤ a ∧ a < b + bs.length
      · rw [if_pos hin] at hmid'
        have : ¬ (b + bs.length ≤ a) := by omega
        rw [if_pos hin, hmid']; simp [this]
      · rw [if_neg hin]
        by_cases hhi : b + bs.length ≤ a
        · simp [hhi]
        · have hab : a < b := by omega
          rw [hlow] at hlow'
          simp [hab] at hlow'
          simp [hhi, hlow']

theorem Memory.length_readRange (m : Memory) (a n : Nat) : (m.readRange a n).length = n := by
  simp [Memory.readRange]

theorem Memory.getElem_readRange (m : Memory) (a n k : Nat) (h : k < (m.readRange a n).length) :
    (m.readRange a n)[k] = m.read (a + k) := by
  simp [Memory.readRange]

/-- Attaching bytes and reading them all back gives them again. -/
theorem Memory.readRange_ofBytes (bs : List Byte) : (Memory.ofBytes bs).readRange 0 bs.length = bs := by
  apply List.ext_getElem (by simp [Memory.readRange])
  intro k h1 h2
  rw [Memory.getElem_readRange, Memory.read_ofBytes]
  simp [h2]

/-! ## The canonical form of the list of cells (log 6) -/

theorem risingCells_iff (xs : List Host.Cell) :
    risingCells xs = true ↔ xs.Pairwise fun c d => c.1 < d.1 := by
  induction xs with
  | nil => simp [risingCells]
  | cons c xs ih =>
    cases xs with
    | nil => simp [risingCells]
    | cons d xs =>
      rw [risingCells, Bool.and_eq_true, ih, decide_eq_true_eq]
      constructor
      · rintro ⟨hcd, hp⟩
        refine List.Pairwise.cons ?_ hp
        intro e he
        rcases List.mem_cons.1 he with rfl | he
        · exact hcd
        · exact Nat.lt_trans hcd ((List.pairwise_cons.1 hp).1 e he)
      · intro hp
        obtain ⟨h1, h2⟩ := List.pairwise_cons.1 hp
        exact ⟨h1 d (by simp), h2⟩

/-- The canonical form as a proposition. -/
theorem Memory.wf_iff (m : Memory) :
    m.wf = true ↔ (m.cells.Pairwise fun c d => c.1 < d.1) ∧ ∀ c ∈ m.cells, c.2 ≠ Config.blankByte := by
  simp [Memory.wf, risingCells_iff]

theorem Memory.within_iff (m : Memory) (n : Nat) : m.within n = true ↔ ∀ c ∈ m.cells, c.1 < n := by
  simp [Memory.within]

@[simp] theorem Memory.wf_empty : Memory.empty.wf = true := rfl

@[simp] theorem Memory.within_empty (n : Nat) : Memory.empty.within n = true := rfl

theorem cellsFrom_nonblank (bs : List Byte) (b : Nat) : ∀ c ∈ cellsFrom b bs, c.2 ≠ Config.blankByte := by
  induction bs generalizing b with
  | nil => simp [cellsFrom]
  | cons v bs ih =>
    by_cases hv : v = Config.blankByte
    · simpa [cellsFrom, hv] using ih (b + 1)
    · intro c hc
      simp only [cellsFrom, hv, if_false, List.mem_cons] at hc
      rcases hc with rfl | hc
      · exact hv
      · exact ih (b + 1) c hc

theorem cellsFrom_bounds (bs : List Byte) (b : Nat) : ∀ c ∈ cellsFrom b bs, b ≤ c.1 ∧ c.1 < b + bs.length :=
  fun c hc => mem_keys_cellsFrom bs b c.1 (List.mem_map.2 ⟨c, hc, rfl⟩)

theorem cellsFrom_rising (bs : List Byte) (b : Nat) : (cellsFrom b bs).Pairwise fun c d => c.1 < d.1 := by
  induction bs generalizing b with
  | nil => simp [cellsFrom]
  | cons v bs ih =>
    by_cases hv : v = Config.blankByte
    · simpa [cellsFrom, hv] using ih (b + 1)
    · simp only [cellsFrom, hv, if_false]
      refine List.Pairwise.cons ?_ (ih (b + 1))
      intro c hc
      have := cellsFrom_bounds bs (b + 1) c hc
      simp; omega

/-- The list of an attached or extracted buffer is in canonical form. -/
theorem Memory.wf_ofBytes (bs : List Byte) : (Memory.ofBytes bs).wf = true :=
  (Memory.wf_iff _).2 ⟨cellsFrom_rising bs 0, cellsFrom_nonblank bs 0⟩

/-- An attached or extracted buffer lists no offset beyond its bytes. -/
theorem Memory.within_ofBytes (bs : List Byte) : (Memory.ofBytes bs).within bs.length = true :=
  (Memory.within_iff _ _).2 fun c hc => by have := cellsFrom_bounds bs 0 c hc; omega

/-- A write keeps the canonical form. -/
theorem Memory.wf_writeRange (m : Memory) (b : Nat) (bs : List Byte) (h : m.wf = true) :
    (m.writeRange b bs).wf = true := by
  rw [Memory.wf_iff] at h ⊢
  obtain ⟨hp, hn⟩ := h
  simp only [Memory.writeRange]
  refine ⟨?_, ?_⟩
  · rw [List.pairwise_append, List.pairwise_append]
    refine ⟨⟨hp.filter _, cellsFrom_rising bs b, ?_⟩, hp.filter _, ?_⟩
    · intro c hc d hd
      have h1 := cellsFrom_bounds bs b d hd
      simp only [List.mem_filter, decide_eq_true_eq] at hc
      omega
    · intro c hc d hd
      simp only [List.mem_append, List.mem_filter, decide_eq_true_eq] at hc hd
      rcases hc with hc | hc
      · omega
      · have := cellsFrom_bounds bs b c hc
        omega
  · intro c hc
    simp only [List.mem_append, List.mem_filter] at hc
    rcases hc with (hc | hc) | hc
    · exact hn c hc.1
    · exact cellsFrom_nonblank bs b c hc
    · exact hn c hc.1

/-- A write inside a buffer lists no offset outside it. -/
theorem Memory.within_writeRange (m : Memory) (b : Nat) (bs : List Byte) (n : Nat) (h : m.within n = true)
    (hb : b + bs.length ≤ n) : (m.writeRange b bs).within n = true := by
  rw [Memory.within_iff] at h ⊢
  intro c hc
  simp only [Memory.writeRange, List.mem_append, List.mem_filter] at hc
  rcases hc with (hc | hc) | hc
  · exact h c hc.1
  · have := cellsFrom_bounds bs b c hc
    omega
  · exact h c hc.1

theorem readCells_of_mem (xs : List Host.Cell) (hp : xs.Pairwise fun c d => c.1 < d.1) (c : Host.Cell) (hc : c ∈ xs) :
    readCells xs c.1 = c.2 := by
  induction xs with
  | nil => simp at hc
  | cons d xs ih =>
    obtain ⟨h1, h2⟩ := List.pairwise_cons.1 hp
    rcases List.mem_cons.1 hc with rfl | hc
    · simp [readCells]
    · have hlt := h1 c hc
      have : ¬ d.1 = c.1 := by omega
      simp [readCells, this, ih h2 hc]

/-- Two buffers whose lists are in canonical form and that read the same everywhere are equal. -/
theorem Memory.ext_of_read (m n : Memory) (hm : m.wf = true) (hn : n.wf = true) (h : ∀ a, m.read a = n.read a) :
    m = n := by
  rw [Memory.wf_iff] at hm hn
  have sub : ∀ x y : Memory, (x.cells.Pairwise fun c d => c.1 < d.1) → (y.cells.Pairwise fun c d => c.1 < d.1) →
      (∀ c ∈ x.cells, c.2 ≠ Config.blankByte) → (∀ a, x.read a = y.read a) → ∀ c ∈ x.cells, c ∈ y.cells := by
    intro x y hx hy hxn hxy c hc
    have h1 : readCells x.cells c.1 = c.2 := readCells_of_mem _ hx c hc
    have h2 : readCells y.cells c.1 = c.2 := by rw [← h1]; exact (hxy c.1).symm
    by_contra hcon
    by_cases hk : c.1 ∈ y.cells.map Prod.fst
    · obtain ⟨d, hd, hdc⟩ := List.mem_map.1 hk
      have h3 := readCells_of_mem _ hy d hd
      rw [hdc, h2] at h3
      have : d = c := Prod.ext hdc h3.symm
      exact hcon (this ▸ hd)
    · rw [readCells_of_notMem _ _ hk] at h2
      exact hxn c hc h2.symm
  have hset : ∀ c, c ∈ m.cells ↔ c ∈ n.cells := fun c =>
    ⟨sub m n hm.1 hn.1 hm.2 h c, sub n m hn.1 hm.1 hn.2 (fun a => (h a).symm) c⟩
  have nodup : ∀ x : List Host.Cell, (x.Pairwise fun c d => c.1 < d.1) → x.Nodup := fun x hx =>
    hx.imp fun hcd heq => by rw [heq] at hcd; omega
  have hperm : m.cells.Perm n.cells := (List.perm_ext_iff_of_nodup (nodup _ hm.1) (nodup _ hn.1)).2 hset
  have heq : m.cells = n.cells := hperm.eq_of_pairwise (le := fun c d => c.1 < d.1)
    (fun c d _ _ h1 h2 => by omega) hm.1 hn.1
  cases m; cases n; simp_all

end Sys2Proof.Machine
end

