-- ==== Sys2Proof/Laws/Config.lean ====
section
/-! SUPPORT. The format constants by name, and their arithmetic (00_scope.md section 3, 95_test_vectors.md section 1.1). -/

namespace Sys2Proof.Config

@[simp] theorem format_sbSize : format.sbSize = 17472 := rfl
@[simp] theorem format_hdrBase : format.hdrBase = 0 := rfl
@[simp] theorem format_hdrSize : format.hdrSize = 36 := rfl
@[simp] theorem format_magicSize : format.magicSize = 12 := rfl
@[simp] theorem format_idxBase : format.idxBase = 36 := rfl
@[simp] theorem format_idxSize : format.idxSize = 16384 := rfl
@[simp] theorem format_palBase : format.palBase = 16420 := rfl
@[simp] theorem format_palEntries : format.palEntries = 256 := rfl
@[simp] theorem format_palEntryBytes : format.palEntryBytes = 4 := rfl
@[simp] theorem format_palSize : format.palSize = 1024 := rfl
@[simp] theorem format_tailBase : format.tailBase = 17444 := rfl
@[simp] theorem format_tailSize : format.tailSize = 28 := rfl
@[simp] theorem format_embW : format.embW = 128 := rfl
@[simp] theorem format_embH : format.embH = 128 := rfl
@[simp] theorem format_pixels : format.pixels = 16384 := rfl
@[simp] theorem format_riBytes : format.riBytes = 65536 := rfl
@[simp] theorem format_maxColors : format.maxColors = 256 := rfl

theorem magic_length : format.magic.length = format.magicSize := rfl

/-- The regions of R50 meet and cover the save buffer. -/
theorem regions_cover : format.hdrBase + format.hdrSize = format.idxBase ∧ format.idxBase + format.idxSize = format.palBase ∧
    format.palBase + format.palSize = format.tailBase ∧ format.tailBase + format.tailSize = format.sbSize ∧
    format.palSize = format.palEntries * format.palEntryBytes := by decide

/-- The sizes of the emblem agree (95_test_vectors.md section 1.1). -/
theorem sizes_agree : format.embW * format.embH = format.pixels ∧ format.pixels = format.idxSize ∧
    format.pixels * 4 = format.riBytes := by decide

@[simp] theorem perms_pixel : perms.pixel = pixelPerm := rfl
@[simp] theorem perms_slot : perms.slot = slotPerm := rfl

end Sys2Proof.Config
end

