-- ==== Sys2Proof/Laws/State.lean ====
section
/-! SUPPORT. What each field holds after each named update of the state, one lemma per field and update. -/

namespace Sys2Proof.Machine

/-! ## `RES <- v` (R30) -/

@[simp] theorem State.setRes_cmdA (s : State) (v : Word) : (s.setRes v).cmdA = s.cmdA := rfl
@[simp] theorem State.setRes_cmdHi (s : State) (v : Word) : (s.setRes v).cmdHi = s.cmdHi := rfl
@[simp] theorem State.setRes_status (s : State) (v : Word) : (s.setRes v).status = s.status := rfl
@[simp] theorem State.setRes_config (s : State) (v : Word) : (s.setRes v).config = s.config := rfl
@[simp] theorem State.setRes_res (s : State) (v : Word) : (s.setRes v).res = some v := rfl
@[simp] theorem State.setRes_resR (s : State) (v : Word) : (s.setRes v).resR = s.resR := rfl
@[simp] theorem State.setRes_resG (s : State) (v : Word) : (s.setRes v).resG = s.resG := rfl
@[simp] theorem State.setRes_resB (s : State) (v : Word) : (s.setRes v).resB = s.resB := rfl
@[simp] theorem State.setRes_resA (s : State) (v : Word) : (s.setRes v).resA = s.resA := rfl
@[simp] theorem State.setRes_sbLen (s : State) (v : Word) : (s.setRes v).sbLen = s.sbLen := rfl
@[simp] theorem State.setRes_riDim (s : State) (v : Word) : (s.setRes v).riDim = s.riDim := rfl
@[simp] theorem State.setRes_sb (s : State) (v : Word) : (s.setRes v).sb = s.sb := rfl
@[simp] theorem State.setRes_ri (s : State) (v : Word) : (s.setRes v).ri = s.ri := rfl
@[simp] theorem State.setRes_pending (s : State) (v : Word) : (s.setRes v).pending = s.pending := rfl
@[simp] theorem State.setRes_hostIndex (s : State) (v : Word) : (s.setRes v).hostIndex = s.hostIndex := rfl
@[simp] theorem State.setRes_reply (s : State) (v : Word) : (s.setRes v).reply = s.reply := rfl

/-! ## The four channel registers (R31) -/

@[simp] theorem State.setChannels_cmdA (s : State) (c : Color) : (s.setChannels c).cmdA = s.cmdA := rfl
@[simp] theorem State.setChannels_cmdHi (s : State) (c : Color) : (s.setChannels c).cmdHi = s.cmdHi := rfl
@[simp] theorem State.setChannels_status (s : State) (c : Color) : (s.setChannels c).status = s.status := rfl
@[simp] theorem State.setChannels_config (s : State) (c : Color) : (s.setChannels c).config = s.config := rfl
@[simp] theorem State.setChannels_res (s : State) (c : Color) : (s.setChannels c).res = s.res := rfl
@[simp] theorem State.setChannels_resR (s : State) (c : Color) : (s.setChannels c).resR = some c.r := rfl
@[simp] theorem State.setChannels_resG (s : State) (c : Color) : (s.setChannels c).resG = some c.g := rfl
@[simp] theorem State.setChannels_resB (s : State) (c : Color) : (s.setChannels c).resB = some c.b := rfl
@[simp] theorem State.setChannels_resA (s : State) (c : Color) : (s.setChannels c).resA = some c.a := rfl
@[simp] theorem State.setChannels_sbLen (s : State) (c : Color) : (s.setChannels c).sbLen = s.sbLen := rfl
@[simp] theorem State.setChannels_riDim (s : State) (c : Color) : (s.setChannels c).riDim = s.riDim := rfl
@[simp] theorem State.setChannels_sb (s : State) (c : Color) : (s.setChannels c).sb = s.sb := rfl
@[simp] theorem State.setChannels_ri (s : State) (c : Color) : (s.setChannels c).ri = s.ri := rfl
@[simp] theorem State.setChannels_pending (s : State) (c : Color) : (s.setChannels c).pending = s.pending := rfl
@[simp] theorem State.setChannels_hostIndex (s : State) (c : Color) : (s.setChannels c).hostIndex = s.hostIndex := rfl
@[simp] theorem State.setChannels_reply (s : State) (c : Color) : (s.setChannels c).reply = s.reply := rfl

/-! ## STATUS at the end of a command (R28) -/

@[simp] theorem State.recordStatus_cmdA (s : State) (e : StatusCode) : (s.recordStatus e).cmdA = s.cmdA := rfl
@[simp] theorem State.recordStatus_cmdHi (s : State) (e : StatusCode) : (s.recordStatus e).cmdHi = s.cmdHi := rfl
@[simp] theorem State.recordStatus_status (s : State) (e : StatusCode) : (s.recordStatus e).status = s.status.record e := rfl
@[simp] theorem State.recordStatus_config (s : State) (e : StatusCode) : (s.recordStatus e).config = s.config := rfl
@[simp] theorem State.recordStatus_res (s : State) (e : StatusCode) : (s.recordStatus e).res = s.res := rfl
@[simp] theorem State.recordStatus_resR (s : State) (e : StatusCode) : (s.recordStatus e).resR = s.resR := rfl
@[simp] theorem State.recordStatus_resG (s : State) (e : StatusCode) : (s.recordStatus e).resG = s.resG := rfl
@[simp] theorem State.recordStatus_resB (s : State) (e : StatusCode) : (s.recordStatus e).resB = s.resB := rfl
@[simp] theorem State.recordStatus_resA (s : State) (e : StatusCode) : (s.recordStatus e).resA = s.resA := rfl
@[simp] theorem State.recordStatus_sbLen (s : State) (e : StatusCode) : (s.recordStatus e).sbLen = s.sbLen := rfl
@[simp] theorem State.recordStatus_riDim (s : State) (e : StatusCode) : (s.recordStatus e).riDim = s.riDim := rfl
@[simp] theorem State.recordStatus_sb (s : State) (e : StatusCode) : (s.recordStatus e).sb = s.sb := rfl
@[simp] theorem State.recordStatus_ri (s : State) (e : StatusCode) : (s.recordStatus e).ri = s.ri := rfl
@[simp] theorem State.recordStatus_pending (s : State) (e : StatusCode) : (s.recordStatus e).pending = s.pending := rfl
@[simp] theorem State.recordStatus_hostIndex (s : State) (e : StatusCode) : (s.recordStatus e).hostIndex = s.hostIndex := rfl
@[simp] theorem State.recordStatus_reply (s : State) (e : StatusCode) : (s.recordStatus e).reply = s.reply := rfl

/-! ## Success (R211) -/

@[simp] theorem State.succeed_cmdA (s : State) : (s.succeed).cmdA = s.cmdA := rfl
@[simp] theorem State.succeed_cmdHi (s : State) : (s.succeed).cmdHi = s.cmdHi := rfl
@[simp] theorem State.succeed_status (s : State) : (s.succeed).status = s.status.record .ok := rfl
@[simp] theorem State.succeed_config (s : State) : (s.succeed).config = s.config := rfl
@[simp] theorem State.succeed_res (s : State) : (s.succeed).res = s.res := rfl
@[simp] theorem State.succeed_resR (s : State) : (s.succeed).resR = s.resR := rfl
@[simp] theorem State.succeed_resG (s : State) : (s.succeed).resG = s.resG := rfl
@[simp] theorem State.succeed_resB (s : State) : (s.succeed).resB = s.resB := rfl
@[simp] theorem State.succeed_resA (s : State) : (s.succeed).resA = s.resA := rfl
@[simp] theorem State.succeed_sbLen (s : State) : (s.succeed).sbLen = s.sbLen := rfl
@[simp] theorem State.succeed_riDim (s : State) : (s.succeed).riDim = s.riDim := rfl
@[simp] theorem State.succeed_sb (s : State) : (s.succeed).sb = s.sb := rfl
@[simp] theorem State.succeed_ri (s : State) : (s.succeed).ri = s.ri := rfl
@[simp] theorem State.succeed_pending (s : State) : (s.succeed).pending = s.pending := rfl
@[simp] theorem State.succeed_hostIndex (s : State) : (s.succeed).hostIndex = s.hostIndex := rfl
@[simp] theorem State.succeed_reply (s : State) : (s.succeed).reply = s.reply := rfl

/-! ## `raise E` in a command whose destination is RES (R210) -/

@[simp] theorem State.raise_scalar_cmdA (s : State) (e : StatusCode) : (s.raise scalarDests e).cmdA = s.cmdA := rfl
@[simp] theorem State.raise_scalar_cmdHi (s : State) (e : StatusCode) : (s.raise scalarDests e).cmdHi = s.cmdHi := rfl
@[simp] theorem State.raise_scalar_status (s : State) (e : StatusCode) : (s.raise scalarDests e).status = s.status.record e := rfl
@[simp] theorem State.raise_scalar_config (s : State) (e : StatusCode) : (s.raise scalarDests e).config = s.config := rfl
@[simp] theorem State.raise_scalar_res (s : State) (e : StatusCode) : (s.raise scalarDests e).res = none := rfl
@[simp] theorem State.raise_scalar_resR (s : State) (e : StatusCode) : (s.raise scalarDests e).resR = s.resR := rfl
@[simp] theorem State.raise_scalar_resG (s : State) (e : StatusCode) : (s.raise scalarDests e).resG = s.resG := rfl
@[simp] theorem State.raise_scalar_resB (s : State) (e : StatusCode) : (s.raise scalarDests e).resB = s.resB := rfl
@[simp] theorem State.raise_scalar_resA (s : State) (e : StatusCode) : (s.raise scalarDests e).resA = s.resA := rfl
@[simp] theorem State.raise_scalar_sbLen (s : State) (e : StatusCode) : (s.raise scalarDests e).sbLen = s.sbLen := rfl
@[simp] theorem State.raise_scalar_riDim (s : State) (e : StatusCode) : (s.raise scalarDests e).riDim = s.riDim := rfl
@[simp] theorem State.raise_scalar_sb (s : State) (e : StatusCode) : (s.raise scalarDests e).sb = s.sb := rfl
@[simp] theorem State.raise_scalar_ri (s : State) (e : StatusCode) : (s.raise scalarDests e).ri = s.ri := rfl
@[simp] theorem State.raise_scalar_pending (s : State) (e : StatusCode) : (s.raise scalarDests e).pending = s.pending := rfl
@[simp] theorem State.raise_scalar_hostIndex (s : State) (e : StatusCode) : (s.raise scalarDests e).hostIndex = s.hostIndex := rfl
@[simp] theorem State.raise_scalar_reply (s : State) (e : StatusCode) : (s.raise scalarDests e).reply = s.reply := rfl

/-! ## `raise E` in a command whose destinations are the channel registers (R210) -/

@[simp] theorem State.raise_channels_cmdA (s : State) (e : StatusCode) : (s.raise channelDests e).cmdA = s.cmdA := rfl
@[simp] theorem State.raise_channels_cmdHi (s : State) (e : StatusCode) : (s.raise channelDests e).cmdHi = s.cmdHi := rfl
@[simp] theorem State.raise_channels_status (s : State) (e : StatusCode) : (s.raise channelDests e).status = s.status.record e := rfl
@[simp] theorem State.raise_channels_config (s : State) (e : StatusCode) : (s.raise channelDests e).config = s.config := rfl
@[simp] theorem State.raise_channels_res (s : State) (e : StatusCode) : (s.raise channelDests e).res = s.res := rfl
@[simp] theorem State.raise_channels_resR (s : State) (e : StatusCode) : (s.raise channelDests e).resR = none := rfl
@[simp] theorem State.raise_channels_resG (s : State) (e : StatusCode) : (s.raise channelDests e).resG = none := rfl
@[simp] theorem State.raise_channels_resB (s : State) (e : StatusCode) : (s.raise channelDests e).resB = none := rfl
@[simp] theorem State.raise_channels_resA (s : State) (e : StatusCode) : (s.raise channelDests e).resA = none := rfl
@[simp] theorem State.raise_channels_sbLen (s : State) (e : StatusCode) : (s.raise channelDests e).sbLen = s.sbLen := rfl
@[simp] theorem State.raise_channels_riDim (s : State) (e : StatusCode) : (s.raise channelDests e).riDim = s.riDim := rfl
@[simp] theorem State.raise_channels_sb (s : State) (e : StatusCode) : (s.raise channelDests e).sb = s.sb := rfl
@[simp] theorem State.raise_channels_ri (s : State) (e : StatusCode) : (s.raise channelDests e).ri = s.ri := rfl
@[simp] theorem State.raise_channels_pending (s : State) (e : StatusCode) : (s.raise channelDests e).pending = s.pending := rfl
@[simp] theorem State.raise_channels_hostIndex (s : State) (e : StatusCode) : (s.raise channelDests e).hostIndex = s.hostIndex := rfl
@[simp] theorem State.raise_channels_reply (s : State) (e : StatusCode) : (s.raise channelDests e).reply = s.reply := rfl

/-! ## An illegal command word (R208) -/

@[simp] theorem State.illegal_cmdA (s : State) : (s.illegal).cmdA = s.cmdA := rfl
@[simp] theorem State.illegal_cmdHi (s : State) : (s.illegal).cmdHi = s.cmdHi := rfl
@[simp] theorem State.illegal_status (s : State) : (s.illegal).status = s.status.record .illegalCommand := rfl
@[simp] theorem State.illegal_config (s : State) : (s.illegal).config = s.config := rfl
@[simp] theorem State.illegal_res (s : State) : (s.illegal).res = s.res := rfl
@[simp] theorem State.illegal_resR (s : State) : (s.illegal).resR = s.resR := rfl
@[simp] theorem State.illegal_resG (s : State) : (s.illegal).resG = s.resG := rfl
@[simp] theorem State.illegal_resB (s : State) : (s.illegal).resB = s.resB := rfl
@[simp] theorem State.illegal_resA (s : State) : (s.illegal).resA = s.resA := rfl
@[simp] theorem State.illegal_sbLen (s : State) : (s.illegal).sbLen = s.sbLen := rfl
@[simp] theorem State.illegal_riDim (s : State) : (s.illegal).riDim = s.riDim := rfl
@[simp] theorem State.illegal_sb (s : State) : (s.illegal).sb = s.sb := rfl
@[simp] theorem State.illegal_ri (s : State) : (s.illegal).ri = s.ri := rfl
@[simp] theorem State.illegal_pending (s : State) : (s.illegal).pending = s.pending := rfl
@[simp] theorem State.illegal_hostIndex (s : State) : (s.illegal).hostIndex = s.hostIndex := rfl
@[simp] theorem State.illegal_reply (s : State) : (s.illegal).reply = s.reply := rfl

/-! ## RESET (R230) -/

@[simp] theorem State.resetBlock_cmdA (s : State) : (s.resetBlock).cmdA = 0 := rfl
@[simp] theorem State.resetBlock_cmdHi (s : State) : (s.resetBlock).cmdHi = 0 := rfl
@[simp] theorem State.resetBlock_status (s : State) : (s.resetBlock).status = ⟨0, false⟩ := rfl
@[simp] theorem State.resetBlock_config (s : State) : (s.resetBlock).config = ⟨false⟩ := rfl
@[simp] theorem State.resetBlock_res (s : State) : (s.resetBlock).res = none := rfl
@[simp] theorem State.resetBlock_resR (s : State) : (s.resetBlock).resR = none := rfl
@[simp] theorem State.resetBlock_resG (s : State) : (s.resetBlock).resG = none := rfl
@[simp] theorem State.resetBlock_resB (s : State) : (s.resetBlock).resB = none := rfl
@[simp] theorem State.resetBlock_resA (s : State) : (s.resetBlock).resA = none := rfl
@[simp] theorem State.resetBlock_sbLen (s : State) : (s.resetBlock).sbLen = 0 := rfl
@[simp] theorem State.resetBlock_riDim (s : State) : (s.resetBlock).riDim = ⟨0, 0⟩ := rfl
@[simp] theorem State.resetBlock_sb (s : State) : (s.resetBlock).sb = .empty := rfl
@[simp] theorem State.resetBlock_ri (s : State) : (s.resetBlock).ri = .empty := rfl
@[simp] theorem State.resetBlock_pending (s : State) : (s.resetBlock).pending = s.pending := rfl
@[simp] theorem State.resetBlock_hostIndex (s : State) : (s.resetBlock).hostIndex = s.hostIndex := rfl
@[simp] theorem State.resetBlock_reply (s : State) : (s.resetBlock).reply = s.reply := rfl

/-! ## The host index moves past an action (R245) -/

@[simp] theorem State.takeAction_cmdA (s : State) (rest : List HostAction) : (s.takeAction rest).cmdA = s.cmdA := rfl
@[simp] theorem State.takeAction_cmdHi (s : State) (rest : List HostAction) : (s.takeAction rest).cmdHi = s.cmdHi := rfl
@[simp] theorem State.takeAction_status (s : State) (rest : List HostAction) : (s.takeAction rest).status = s.status := rfl
@[simp] theorem State.takeAction_config (s : State) (rest : List HostAction) : (s.takeAction rest).config = s.config := rfl
@[simp] theorem State.takeAction_res (s : State) (rest : List HostAction) : (s.takeAction rest).res = s.res := rfl
@[simp] theorem State.takeAction_resR (s : State) (rest : List HostAction) : (s.takeAction rest).resR = s.resR := rfl
@[simp] theorem State.takeAction_resG (s : State) (rest : List HostAction) : (s.takeAction rest).resG = s.resG := rfl
@[simp] theorem State.takeAction_resB (s : State) (rest : List HostAction) : (s.takeAction rest).resB = s.resB := rfl
@[simp] theorem State.takeAction_resA (s : State) (rest : List HostAction) : (s.takeAction rest).resA = s.resA := rfl
@[simp] theorem State.takeAction_sbLen (s : State) (rest : List HostAction) : (s.takeAction rest).sbLen = s.sbLen := rfl
@[simp] theorem State.takeAction_riDim (s : State) (rest : List HostAction) : (s.takeAction rest).riDim = s.riDim := rfl
@[simp] theorem State.takeAction_sb (s : State) (rest : List HostAction) : (s.takeAction rest).sb = s.sb := rfl
@[simp] theorem State.takeAction_ri (s : State) (rest : List HostAction) : (s.takeAction rest).ri = s.ri := rfl
@[simp] theorem State.takeAction_pending (s : State) (rest : List HostAction) : (s.takeAction rest).pending = rest := rfl
@[simp] theorem State.takeAction_hostIndex (s : State) (rest : List HostAction) : (s.takeAction rest).hostIndex = s.hostIndex + 1 := rfl
@[simp] theorem State.takeAction_reply (s : State) (rest : List HostAction) : (s.takeAction rest).reply = none := rfl

/-! ## A command word placed for the next step (log 12) -/

@[simp] theorem State.placeCommand_cmdA (s : State) (w : CommandWord) : (s.placeCommand w).cmdA = cmdAOf w := rfl
@[simp] theorem State.placeCommand_cmdHi (s : State) (w : CommandWord) : (s.placeCommand w).cmdHi = s.cmdHi := rfl
@[simp] theorem State.placeCommand_status (s : State) (w : CommandWord) : (s.placeCommand w).status = s.status := rfl
@[simp] theorem State.placeCommand_config (s : State) (w : CommandWord) : (s.placeCommand w).config = s.config := rfl
@[simp] theorem State.placeCommand_res (s : State) (w : CommandWord) : (s.placeCommand w).res = s.res := rfl
@[simp] theorem State.placeCommand_resR (s : State) (w : CommandWord) : (s.placeCommand w).resR = s.resR := rfl
@[simp] theorem State.placeCommand_resG (s : State) (w : CommandWord) : (s.placeCommand w).resG = s.resG := rfl
@[simp] theorem State.placeCommand_resB (s : State) (w : CommandWord) : (s.placeCommand w).resB = s.resB := rfl
@[simp] theorem State.placeCommand_resA (s : State) (w : CommandWord) : (s.placeCommand w).resA = s.resA := rfl
@[simp] theorem State.placeCommand_sbLen (s : State) (w : CommandWord) : (s.placeCommand w).sbLen = s.sbLen := rfl
@[simp] theorem State.placeCommand_riDim (s : State) (w : CommandWord) : (s.placeCommand w).riDim = s.riDim := rfl
@[simp] theorem State.placeCommand_sb (s : State) (w : CommandWord) : (s.placeCommand w).sb = s.sb := rfl
@[simp] theorem State.placeCommand_ri (s : State) (w : CommandWord) : (s.placeCommand w).ri = s.ri := rfl
@[simp] theorem State.placeCommand_pending (s : State) (w : CommandWord) : (s.placeCommand w).pending = launchAction w :: s.pending := rfl
@[simp] theorem State.placeCommand_hostIndex (s : State) (w : CommandWord) : (s.placeCommand w).hostIndex = s.hostIndex := rfl
@[simp] theorem State.placeCommand_reply (s : State) (w : CommandWord) : (s.placeCommand w).reply = s.reply := rfl

end Sys2Proof.Machine
end

