-- ==== Sys2Proof/Laws/Ops.lean ====
section
/-! SUPPORT. What each shared operation can do, once: the end of a command, its operands, its checks and its accesses. -/

namespace Sys2Proof.Machine

/-! ## STATUS -/

@[simp] theorem Status.record_ok (st : Status) : st.record .ok = ⟨0, st.sticky⟩ := by
  simp [Status.record, StatusCode.num]

theorem Status.record_error (st : Status) (e : StatusCode) (h : e ≠ .ok) : st.record e = ⟨e.num, true⟩ := by
  cases e <;> simp_all [Status.record, StatusCode.num]

theorem StatusCode.num_ne_zero (e : StatusCode) (h : e ≠ .ok) : e.num ≠ 0 := by
  cases e <;> simp_all [StatusCode.num]

/-! ## The end of a command -/

@[simp] theorem complete_ok (dests : List ResultReg) (s t : State) : complete dests s (.ok t) = .next t.succeed := rfl

@[simp] theorem complete_raised (dests : List ResultReg) (s : State) (e : StatusCode) :
    complete dests s (.error (.raised e)) = .next (s.raise dests e) := rfl

@[simp] theorem complete_fault (dests : List ResultReg) (s : State) (f : Fault) :
    complete dests s (.error (.fault f)) = .fault f := rfl

/-- What the end of a command can be when it answers a next state: a success or a raised error. -/
theorem complete_next (dests : List ResultReg) (s t : State) (r : Except Stop State)
    (h : complete dests s r = .next t) :
    (∃ u, r = .ok u ∧ t = u.succeed) ∨ (∃ e, r = .error (.raised e) ∧ t = s.raise dests e) := by
  match r with
  | .ok u => exact .inl ⟨u, rfl, by simpa using h.symm⟩
  | .error (.raised e) => exact .inr ⟨e, rfl, by simpa using h.symm⟩
  | .error (.fault f) => simp at h

/-- The one way in which a command's result can be nothing but a next state. -/
theorem complete_answers (dests : List ResultReg) (s : State) (r : Except Stop State)
    (h : ∀ f, r ≠ .error (.fault f)) : ∃ t, complete dests s r = .next t := by
  match r with
  | .ok u => exact ⟨_, rfl⟩
  | .error (.raised e) => exact ⟨_, rfl⟩
  | .error (.fault f) => exact absurd rfl (h f)

/-! ## Operands -/

theorem pixelOperand_ok (i : Word) (h : i.toNat < 16384) : pixelOperand i = .ok ⟨i.toNat, h⟩ := by
  simp [pixelOperand, h]

theorem pixelOperand_error (i : Word) (h : ¬ i.toNat < 16384) :
    pixelOperand i = .error (.raised .indexOutOfRange) := by
  simp [pixelOperand, h]

theorem offsetOperand_ok (o : Word) (b : BitVec 24) (h : b.toNat ≤ o.toNat ∧ o.toNat - b.toNat < 16384) :
    offsetOperand o b = .ok ⟨o.toNat - b.toNat, h.2⟩ := by
  unfold offsetOperand; rw [dif_pos h]

theorem offsetOperand_error (o : Word) (b : BitVec 24) (h : ¬ (b.toNat ≤ o.toNat ∧ o.toNat - b.toNat < 16384)) :
    offsetOperand o b = .error (.raised .indexOutOfRange) := by
  unfold offsetOperand; rw [dif_neg h]

theorem slotOperand_ok (s : Word) (h : s.toNat < 256) : slotOperand s = .ok ⟨s.toNat, h⟩ := by
  simp [slotOperand, h]

theorem slotOperand_error (s : Word) (h : ¬ s.toNat < 256) : slotOperand s = .error (.raised .indexOutOfRange) := by
  simp [slotOperand, h]

@[simp] theorem slotOfByte_byteOfSlot (s : Slot) : slotOfByte (byteOfSlot s) = s := by
  apply Fin.ext
  simp [slotOfByte, byteOfSlot]

@[simp] theorem byteOfSlot_slotOfByte (b : Byte) : byteOfSlot (slotOfByte b) = b := by
  simp [slotOfByte, byteOfSlot]

theorem slotOfPos_val (p : Nat) (h : p < 256) : (slotOfPos p).val = p := Nat.mod_eq_of_lt h

/-! ## Checks -/

theorem formatCheck_ok (s : State) (h : s.sbLen = 17472#32) : formatCheck s = .ok () := by
  simp [formatCheck, h]

theorem formatCheck_error (s : State) (h : s.sbLen ≠ 17472#32) : formatCheck s = .error (.raised .formatError) := by
  have : ¬ s.sbLen.toNat = Config.format.sbSize := fun e => h (BitVec.eq_of_toNat_eq e)
  simp only [formatCheck, if_neg this]

theorem sizeCheck_ok (s : State) (h : s.riDim.w = 128#16 ∧ s.riDim.h = 128#16) : sizeCheck s = .ok () := by
  simp [sizeCheck, h]

theorem sizeCheck_error (s : State) (h : ¬ (s.riDim.w = 128#16 ∧ s.riDim.h = 128#16)) :
    sizeCheck s = .error (.raised .sizeError) := by
  have : ¬ (s.riDim.w.toNat = Config.format.embW ∧ s.riDim.h.toNat = Config.format.embH) :=
    fun e => h ⟨BitVec.eq_of_toNat_eq e.1, BitVec.eq_of_toNat_eq e.2⟩
  simp only [sizeCheck, if_neg this]

theorem sbInRange_ok (s : State) (a n : Nat) (h : a + n ≤ s.sbLen.toNat) : sbInRange s a n = .ok () := by
  simp [sbInRange, h]

theorem riInRange_ok (s : State) (a n : Nat) (h : a + n ≤ s.riDim.bytes) : riInRange s a n = .ok () := by
  simp [riInRange, h]

end Sys2Proof.Machine
end

