-- ==== Sys2Proof/Laws/PaletteCodec.lean ====
section
/-! SUPPORT. The bytes of a packed color: little-endian order and the packing put the channels on disk in R, G, B, A order
(R9, R58, R121). -/

namespace Sys2Proof.Machine

theorem toNat_le32 (b0 b1 b2 b3 : Byte) :
    (le32 b0 b1 b2 b3).toNat = b0.toNat + 256 * b1.toNat + 65536 * b2.toNat + 16777216 * b3.toNat := by
  have := b0.isLt; have := b1.isLt; have := b2.isLt; have := b3.isLt
  simp only [le32, BitVec.toNat_ofNat]; omega

theorem toNat_pack (c : Color) :
    (pack c).toNat = c.r.toNat + 256 * c.g.toNat + 65536 * c.b.toNat + 16777216 * c.a.toNat := by
  have := c.r.isLt; have := c.g.isLt; have := c.b.isLt; have := c.a.isLt
  simp only [pack, BitVec.toNat_ofNat]; omega

/-- A byte of a 32-bit word as a number. -/
theorem toNat_byteAt (w : Word) (k : Nat) : (w.extractLsb' k 8).toNat = w.toNat / 2 ^ k % 256 := by
  simp [BitVec.extractLsb'_toNat, Nat.shiftRight_eq_div_pow]

/-- Unpacking a little-endian load gives the four bytes in their stored order (R121). -/
theorem unpack_le32 (b0 b1 b2 b3 : Byte) : unpack (le32 b0 b1 b2 b3) = ⟨b0, b1, b2, b3⟩ := by
  have := b0.isLt; have := b1.isLt; have := b2.isLt; have := b3.isLt
  simp only [unpack, Color.mk.injEq]
  refine ⟨?_, ?_, ?_, ?_⟩ <;> apply BitVec.eq_of_toNat_eq <;> rw [toNat_byteAt, toNat_le32] <;> omega

/-- The little-endian bytes of a packed color are its channels in the order R, G, B, A (R58, R121). -/
theorem leBytes32_pack (c : Color) : leBytes32 (pack c) = #v[c.r, c.g, c.b, c.a] := by
  have := c.r.isLt; have := c.g.isLt; have := c.b.isLt; have := c.a.isLt
  have h0 : (pack c).extractLsb' 0 8 = c.r := by apply BitVec.eq_of_toNat_eq; rw [toNat_byteAt, toNat_pack]; omega
  have h1 : (pack c).extractLsb' 8 8 = c.g := by apply BitVec.eq_of_toNat_eq; rw [toNat_byteAt, toNat_pack]; omega
  have h2 : (pack c).extractLsb' 16 8 = c.b := by apply BitVec.eq_of_toNat_eq; rw [toNat_byteAt, toNat_pack]; omega
  have h3 : (pack c).extractLsb' 24 8 = c.a := by apply BitVec.eq_of_toNat_eq; rw [toNat_byteAt, toNat_pack]; omega
  simp only [leBytes32, h0, h1, h2, h3]

/-- A palette entry is the four bytes of the save buffer at `16420 + 4*ps`, read as R, G, B, A (R54, R123). -/
theorem palRead_eq (sb : Memory) (ps : Slot) :
    palRead sb ps = ⟨sb.read (16420 + 4 * ps.val), sb.read (16420 + 4 * ps.val + 1), sb.read (16420 + 4 * ps.val + 2),
      sb.read (16420 + 4 * ps.val + 3)⟩ := unpack_le32 _ _ _ _

end Sys2Proof.Machine
end

