-- ==== Sys2Proof/Laws/Composition.lean ====
section
/-! SUPPORT. The parts of EXTRACT and INJECT: the bytes EXTRACT computes, the palette INJECT builds, and the blocks it
stages. -/

namespace Sys2Proof.Machine

/-! ## Every pixel -/

theorem allPixels_eq : allPixels = List.finRange 16384 := by
  delta allPixels; exact Eq.refl _

@[simp] theorem length_allPixels : allPixels.length = 16384 := by rw [allPixels_eq, List.length_finRange]

@[simp] theorem getElem_allPixels (k : Nat) (h : k < allPixels.length) : allPixels[k] = ⟨k, by simpa using h⟩ := by
  simp [allPixels_eq]

@[simp] theorem mem_allPixels (i : PixelIx) : i ∈ allPixels := by rw [allPixels_eq]; exact List.mem_finRange i

/-! ## EXTRACT's bytes -/

theorem length_flatMap_colorBytes {α : Type} (f : α → Color) (xs : List α) :
    (xs.flatMap fun x => colorBytes (f x)).length = 4 * xs.length := by
  induction xs with
  | nil => rfl
  | cons x xs ih =>
    rw [List.flatMap_cons, List.length_append, ih, List.length_cons]
    simp only [colorBytes, List.length_cons, List.length_nil]
    omega

theorem getD_flatMap_colorBytes {α : Type} (f : α → Color) (xs : List α) (i k : Nat) (hi : i < xs.length) (hk : k < 4) :
    (xs.flatMap fun x => colorBytes (f x)).getD (4 * i + k) 0 = (colorBytes (f xs[i])).getD k 0 := by
  induction xs generalizing i with
  | nil => simp at hi
  | cons x xs ih =>
    have hlen : (colorBytes (f x)).length = 4 := rfl
    cases i with
    | zero =>
      have : 4 * 0 + k < (colorBytes (f x)).length := by rw [hlen]; omega
      rw [List.flatMap_cons, List.getD_append _ _ _ _ this]
      simp
    | succ i =>
      have : (colorBytes (f x)).length ≤ 4 * (i + 1) + k := by rw [hlen]; omega
      rw [List.flatMap_cons, List.getD_append_right _ _ _ _ this, hlen, show 4 * (i + 1) + k - 4 = 4 * i + k by omega,
        ih i (by simpa using hi)]
      rfl

/-- EXTRACT always computes 65536 bytes (R158). -/
theorem length_extractBytes (P : Config.Perms) (sb : Memory) : (extractBytes P sb).length = 65536 := by
  rw [extractBytes, length_flatMap_colorBytes, length_allPixels]

/-- The four bytes of a pixel of EXTRACT's raster are its channels (R155). -/
theorem getD_extractBytes (P : Config.Perms) (sb : Memory) (i : PixelIx) (k : Nat) (hk : k < 4) :
    (extractBytes P sb).getD (4 * i.val + k) 0 = (colorBytes (extractPixel P sb i)).getD k 0 := by
  have := getD_flatMap_colorBytes (extractPixel P sb) allPixels i.val k (by simp) hk
  simpa [extractBytes] using this

/-- A pixel of the raster EXTRACT leaves has the color ExtractPixel gives (R153, R155). -/
theorem pixelColor_extracted (P : Config.Perms) (sb : Memory) (i : PixelIx) :
    pixelColor (.ofBytes (extractBytes P sb)) i = extractPixel P sb i := by
  have hi := i.isLt
  have at_k : ∀ k, k < 4 → (Memory.ofBytes (extractBytes P sb)).read (4 * i.val + k)
      = (colorBytes (extractPixel P sb i)).getD k 0 := fun k hk => by
    rw [Memory.read_ofBytes, length_extractBytes, if_pos (by omega), getD_extractBytes P sb i k hk]
  have h0 := at_k 0 (by omega)
  have h1 := at_k 1 (by omega)
  have h2 := at_k 2 (by omega)
  have h3 := at_k 3 (by omega)
  simp only [Nat.add_zero] at h0
  simp [pixelColor, h0, h1, h2, h3, colorBytes]

/-- Two rasters whose pixels have the same colors hold the same 65536 bytes. -/
theorem sameRaster_of_pixelColor (m n : Memory) (h : ∀ i, pixelColor m i = pixelColor n i) : SameRaster m n := by
  intro a ha
  have hpix := h ⟨a / 4, by omega⟩
  simp only [pixelColor, Color.mk.injEq] at hpix
  obtain ⟨h0, h1, h2, h3⟩ := hpix
  have hk : a % 4 = 0 ∨ a % 4 = 1 ∨ a % 4 = 2 ∨ a % 4 = 3 := by omega
  rcases hk with hk | hk | hk | hk
  · rwa [show 4 * (a / 4) = a by omega] at h0
  · rwa [show 4 * (a / 4) + 1 = a by omega] at h1
  · rwa [show 4 * (a / 4) + 2 = a by omega] at h2
  · rwa [show 4 * (a / 4) + 3 = a by omega] at h3

theorem rasterColors_congr (m n : Memory) (h : ∀ i, pixelColor m i = pixelColor n i) : rasterColors m = rasterColors n :=
  List.map_congr_left fun i _ => h i

/-! ## First-seen order -/

theorem firstSeenFrom_append (seen cs : List Color) : ∃ more, firstSeenFrom seen cs = seen ++ more := by
  induction cs generalizing seen with
  | nil => exact ⟨[], by simp [firstSeenFrom]⟩
  | cons c cs ih =>
    by_cases h : c ∈ seen
    · simpa [firstSeenFrom, h] using ih seen
    · obtain ⟨more, hm⟩ := ih (seen ++ [c])
      exact ⟨c :: more, by simp [firstSeenFrom, h, hm]⟩

theorem mem_firstSeenFrom (seen cs : List Color) (c : Color) : c ∈ firstSeenFrom seen cs ↔ c ∈ seen ∨ c ∈ cs := by
  induction cs generalizing seen with
  | nil => simp [firstSeenFrom]
  | cons d cs ih =>
    by_cases h : d ∈ seen
    · simp only [firstSeenFrom, h, if_true, ih, List.mem_cons]
      exact ⟨fun h' => h'.imp_right .inr, fun h' => h'.elim .inl fun h'' => h''.elim (fun e => .inl (e ▸ h)) .inr⟩
    · simp only [firstSeenFrom, h, if_false, ih, List.mem_append, List.mem_cons, List.not_mem_nil, or_false]
      exact or_assoc

theorem nodup_firstSeenFrom (seen cs : List Color) (h : seen.Nodup) : (firstSeenFrom seen cs).Nodup := by
  induction cs generalizing seen with
  | nil => simpa [firstSeenFrom] using h
  | cons c cs ih =>
    by_cases hc : c ∈ seen
    · simpa [firstSeenFrom, hc] using ih seen h
    · have : (seen ++ [c]).Nodup := by
        rw [List.nodup_append]
        exact ⟨h, List.nodup_singleton c, by rintro a ha b hb rfl; simp at hb; exact hc (hb ▸ ha)⟩
      simpa [firstSeenFrom, hc] using ih _ this

theorem nodup_firstSeen (ri : Memory) : (firstSeen ri).Nodup := nodup_firstSeenFrom [] _ List.nodup_nil

theorem mem_firstSeen (ri : Memory) (c : Color) : c ∈ firstSeen ri ↔ c ∈ rasterColors ri := by
  simp [firstSeen, mem_firstSeenFrom]

theorem pixelColor_mem_firstSeen (ri : Memory) (i : PixelIx) : pixelColor ri i ∈ firstSeen ri :=
  (mem_firstSeen ri _).2 (List.mem_map.2 ⟨i, mem_allPixels i, rfl⟩)

/-- The palette list has one entry per distinct color. -/
theorem length_firstSeen (ri : Memory) : (firstSeen ri).length = distinctColors ri := by
  have hset : (firstSeen ri).toFinset = (rasterColors ri).toFinset :=
    List.toFinset_eq_iff_perm_dedup.2 <| (List.perm_ext_iff_of_nodup (List.nodup_dedup _) (List.nodup_dedup _)).2 fun c => by
      rw [List.mem_dedup, List.mem_dedup, mem_firstSeen]
  rw [distinctColors, ← hset, List.toFinset_card_of_nodup (nodup_firstSeen ri)]

/-- A pixel's palette position is below the number of distinct colors (R173). -/
theorem palettePos_lt (ri : Memory) (i : PixelIx) : palettePos ri i < distinctColors ri := by
  rw [← length_firstSeen]
  exact List.idxOf_lt_length_iff.2 (pixelColor_mem_firstSeen ri i)

/-- The palette entry at a pixel's palette position is the pixel's color (R173, R183). -/
theorem firstSeen_palettePos (ri : Memory) (i : PixelIx) :
    (firstSeen ri)[palettePos ri i]? = some (pixelColor ri i) := by
  have h : palettePos ri i < (firstSeen ri).length := List.idxOf_lt_length_iff.2 (pixelColor_mem_firstSeen ri i)
  rw [List.getElem?_eq_getElem h]
  exact congrArg some (List.getElem_idxOf h)

theorem palettePos_congr (m n : Memory) (h : ∀ i, pixelColor m i = pixelColor n i) (i : PixelIx) :
    palettePos m i = palettePos n i := by
  simp only [palettePos, firstSeen, rasterColors_congr m n h, h i]

/-- P[0] is always the color of pixel 0 (R173). -/
theorem palettePos_zero (ri : Memory) : palettePos ri 0 = 0 := by
  obtain ⟨rest, hrest⟩ : ∃ rest, rasterColors ri = pixelColor ri 0 :: rest := by
    rw [rasterColors, allPixels_eq, List.finRange_succ]
    exact ⟨_, rfl⟩
  obtain ⟨more, hm⟩ := firstSeenFrom_append [pixelColor ri 0] rest
  rw [palettePos, firstSeen, hrest, firstSeenFrom, if_neg List.not_mem_nil, List.nil_append, hm]
  simp

/-! ## BuildPalette -/

/-- What the scan of BuildPalette answers: the palette in first-seen order with each pixel's position in it, or
CapacityExceeded when it would hold more than 256 colors (R173, R174). -/
theorem scanColors_eq (seen cs : List Color) (hlen : seen.length ≤ 256) :
    scanColors seen cs =
      if (firstSeenFrom seen cs).length ≤ 256 then
        .ok ⟨firstSeenFrom seen cs, cs.map fun c => (firstSeenFrom seen cs).idxOf c⟩
      else .error (.raised .capacityExceeded) := by
  induction cs generalizing seen with
  | nil => simp [scanColors, firstSeenFrom, hlen]
  | cons c cs ih =>
    by_cases hc : c ∈ seen
    · have hidx : seen.idxOf? c = some (seen.idxOf c) := by
        have h := List.idxOf_lt_length_iff.2 hc
        rw [List.idxOf?_eq_some_iff]
        refine ⟨h, ?_, ?_⟩
        · simp
        · intro j hj
          have := List.not_of_lt_findIdx (p := (· == c)) (xs := seen) (i := j) hj
          simp_all
      obtain ⟨more, hm⟩ := firstSeenFrom_append seen cs
      simp only [scanColors, hidx, ih seen hlen, firstSeenFrom, hc, if_true]
      split
      · simp [Except.map, hm, List.idxOf_append_of_mem hc]
      · rfl
    · have hidx : seen.idxOf? c = none := by simpa [List.idxOf?_eq_none_iff] using hc
      simp only [scanColors, hidx, firstSeenFrom, hc, if_false]
      obtain ⟨more, hm⟩ := firstSeenFrom_append (seen ++ [c]) cs
      by_cases hfull : seen.length = Config.format.maxColors
      · have h256 : seen.length = 256 := hfull
        have : ¬ (firstSeenFrom (seen ++ [c]) cs).length ≤ 256 := by simp [hm]; omega
        rw [if_pos hfull, if_neg this]
      · have h256 : ¬ seen.length = 256 := hfull
        rw [if_neg hfull, ih (seen ++ [c]) (by simp; omega)]
        split
        · have : (seen ++ c :: more).idxOf c = seen.length := by
            rw [List.idxOf_append_of_notMem hc]; simp
          simp [Except.map, hm, this]
        · rfl

/-- BuildPalette succeeds exactly on rasters of at most 256 distinct colors (R173, R174). -/
theorem buildPalette_ok (ri : Memory) (h : distinctColors ri ≤ 256) :
    buildPalette ri = .ok ⟨firstSeen ri, allPixels.map (palettePos ri)⟩ := by
  have hlen : (firstSeenFrom [] (rasterColors ri)).length ≤ 256 := by
    have := length_firstSeen ri
    rw [firstSeen] at this; omega
  rw [buildPalette, scanColors_eq [] _ (by simp), if_pos hlen]
  simp [firstSeen, rasterColors, palettePos, Function.comp_def]

/-- A raster of more than 256 distinct colors raises CapacityExceeded (R174, R184). -/
theorem buildPalette_error (ri : Memory) (h : 256 < distinctColors ri) :
    buildPalette ri = .error (.raised .capacityExceeded) := by
  have hlen : ¬ (firstSeenFrom [] (rasterColors ri)).length ≤ 256 := by
    have := length_firstSeen ri
    rw [firstSeen] at this; omega
  rw [buildPalette, scanColors_eq [] _ (by simp), if_neg hlen]

/-! ## Staging -/

/-- The index bytes after staging some pixels: each of them holds its byte, every other offset is as before (R177). -/
theorem stageIndex_get (P : Config.Perms) (pos : List Nat) (is : List PixelIx) (stg : Staging) (k : Nat) (hk : k < 17408) :
    (is.foldl (stageIndexByte P pos) stg)[k] =
      if h : ∃ i ∈ is, (P.pixel i).val = k then byteOfSlot (P.slot.symm (slotOfPos (pos.getD (P.pixel.symm ⟨k, by
        obtain ⟨i, _, rfl⟩ := h; exact (P.pixel i).isLt⟩).val 0)))
      else stg[k] := by
  induction is generalizing stg with
  | nil => simp
  | cons i is ih =>
    rw [List.foldl_cons, ih]
    by_cases h1 : ∃ j ∈ is, (P.pixel j).val = k
    · have h2 : ∃ j ∈ i :: is, (P.pixel j).val = k := by
        obtain ⟨j, hj, hjk⟩ := h1; exact ⟨j, List.mem_cons_of_mem _ hj, hjk⟩
      rw [dif_pos h1, dif_pos h2]
    · rw [dif_neg h1]
      by_cases hi : (P.pixel i).val = k
      · have h2 : ∃ j ∈ i :: is, (P.pixel j).val = k := ⟨i, by simp, hi⟩
        rw [dif_pos h2]
        subst hi
        simp [stageIndexByte]
      · have h2 : ¬ ∃ j ∈ i :: is, (P.pixel j).val = k := by
          rintro ⟨j, hj, hjk⟩
          rcases List.mem_cons.1 hj with rfl | hj
          · exact hi hjk
          · exact h1 ⟨j, hj, hjk⟩
        rw [dif_neg h2]
        simp [stageIndexByte, hi]

/-- A staged palette entry: the four channels at its place, every other offset as before (R123). -/
theorem stgPalWrite_get (stg : Staging) (ps : Slot) (c : Color) (k : Nat) (hk : k < 17408) :
    (stgPalWrite stg ps c)[k] =
      if 16384 + 4 * ps.val ≤ k ∧ k < 16384 + 4 * ps.val + 4 then (colorBytes c).getD (k - (16384 + 4 * ps.val)) 0
      else stg[k] := by
  simp only [stgPalWrite, leBytes32_pack]
  simp only [Vector.getElem_set]
  by_cases hin : 16384 + 4 * ps.val ≤ k ∧ k < 16384 + 4 * ps.val + 4
  · rw [if_pos hin]
    obtain ⟨d, rfl⟩ : ∃ d, k = 16384 + 4 * ps.val + d := ⟨k - (16384 + 4 * ps.val), by omega⟩
    have hd : d < 4 := by omega
    have hcases : d = 0 ∨ d = 1 ∨ d = 2 ∨ d = 3 := by omega
    rcases hcases with rfl | rfl | rfl | rfl <;> simp [colorBytes]
  · rw [if_neg hin, if_neg (by omega), if_neg (by omega), if_neg (by omega), if_neg (by omega)]

/-- The staged palette entries of some palette positions from `n` on: each position's entry holds its color, every other
offset is as before (R178). -/
theorem stageEntries_get (P : Config.Perms) (colors : List Color) (n : Nat) (hn : n + colors.length ≤ 256) (stg : Staging)
    (k : Nat) (hk : k < 17408) :
    ((colors.zipIdx n).foldl (stageEntry P) stg)[k] =
      if 16384 + 4 * n ≤ k ∧ k < 16384 + 4 * (n + colors.length) then
        (colorBytes (colors.getD ((k - 16384) / 4 - n) ⟨0, 0, 0, 0⟩)).getD ((k - 16384) % 4) 0
      else stg[k] := by
  induction colors generalizing n stg with
  | nil => simp
  | cons c cs ih =>
    simp only [List.length_cons] at hn
    rw [List.zipIdx_cons, List.foldl_cons, ih (n + 1) (by omega)]
    have hslot : (P.slot (P.slot.symm (slotOfPos n))).val = n := by
      rw [Equiv.apply_symm_apply, slotOfPos_val n (by omega)]
    by_cases h1 : 16384 + 4 * (n + 1) ≤ k ∧ k < 16384 + 4 * (n + 1 + cs.length)
    · have h2 : 16384 + 4 * n ≤ k ∧ k < 16384 + 4 * (n + (c :: cs).length) := by simp; omega
      rw [if_pos h1, if_pos h2, show (k - 16384) / 4 - n = ((k - 16384) / 4 - (n + 1)) + 1 by omega, List.getD_cons_succ]
    · rw [if_neg h1, stageEntry, stgPalWrite_get, hslot]
      by_cases h3 : 16384 + 4 * n ≤ k ∧ k < 16384 + 4 * n + 4
      · have h2 : 16384 + 4 * n ≤ k ∧ k < 16384 + 4 * (n + (c :: cs).length) := by simp; omega
        rw [if_pos h3, if_pos h2, show (k - 16384) / 4 - n = 0 by omega, List.getD_cons_zero,
          show k - (16384 + 4 * n) = (k - 16384) % 4 by omega]
      · have h2 : ¬ (16384 + 4 * n ≤ k ∧ k < 16384 + 4 * (n + (c :: cs).length)) := by simp; omega
        rw [if_neg h3, if_neg h2]

/-- The staged index byte of a pixel (R177). -/
theorem stage_index (P : Config.Perms) (sb : Memory) (pal : Palette) (hlen : pal.colors.length ≤ 256) (i : PixelIx) :
    (stage P sb pal)[(P.pixel i).val]'(by omega) = byteOfSlot (P.slot.symm (slotOfPos (pal.pos.getD i.val 0))) := by
  have hi := (P.pixel i).isLt
  rw [stage, stageEntries_get P pal.colors 0 (by omega), if_neg (by omega), stageIndex_get,
    dif_pos ⟨i, mem_allPixels i, rfl⟩]
  simp

/-- The staged palette entry of a palette position (R178). -/
theorem stage_entry (P : Config.Perms) (sb : Memory) (pal : Palette) (hlen : pal.colors.length ≤ 256) (p k : Nat)
    (hp : p < pal.colors.length) (hk : k < 4) :
    (stage P sb pal)[16384 + 4 * p + k]'(by omega) = (colorBytes pal.colors[p]).getD k 0 := by
  rw [stage, stageEntries_get P pal.colors 0 (by omega), if_pos (by omega),
    show (16384 + 4 * p + k - 16384) / 4 - 0 = p by omega, show (16384 + 4 * p + k - 16384) % 4 = k by omega]
  simp [hp]

/-- A palette entry that no palette position uses is staged as it was (R176, R182). -/
theorem stage_kept (P : Config.Perms) (sb : Memory) (pal : Palette) (hlen : pal.colors.length ≤ 256) (k : Nat)
    (hlow : 16384 + 4 * pal.colors.length ≤ k) (hk : k < 17408) : (stage P sb pal)[k] = sb.read (36 + k) := by
  have hnone : ¬ ∃ i ∈ allPixels, (P.pixel i).val = k := by
    rintro ⟨i, _, h⟩
    have := (P.pixel i).isLt
    omega
  rw [stage, stageEntries_get P pal.colors 0 (by omega), if_neg (by omega), stageIndex_get, dif_neg hnone]
  simp [stageBlocks]

end Sys2Proof.Machine
end

