-- ==== Sys2Proof/Laws/Commands.lean ====
section
/-! SUPPORT. What each command answers, once per case of its rule, for any parameters: the provers cite these instead of
unfolding a command. -/

namespace Sys2Proof.Machine

/-! ## MagicCheck -/

/-- The twelve bytes read equal MAGIC exactly when each of them does (R51, R152). -/
theorem magicBytes_iff (m : Memory) :
    m.readRange 0 12 = Config.format.magic ↔ ∀ k : Fin 12, m.read k.val = Config.format.magic.getD k.val 0 := by
  constructor
  · intro h k
    have hk : k.val < (m.readRange 0 12).length := by simp [Memory.readRange]
    have hget := Memory.getElem_readRange m 0 12 k.val hk
    rw [Nat.zero_add] at hget
    rw [← hget, ← h, List.getD_eq_getElem _ _ hk]
  · intro h
    apply List.ext_getElem (by simp [Memory.readRange, Config.format])
    intro k h1 h2
    have hk : k < 12 := by simpa [Memory.readRange] using h1
    rw [Memory.getElem_readRange, Nat.zero_add, h ⟨k, hk⟩, List.getD_eq_getElem _ _ h2]

theorem magicCheck_ok (s : State) (hlen : ValidLength s) (h : MagicPasses s) : magicCheck s = .ok () := by
  unfold magicCheck
  by_cases hen : s.config.enforceMagic = true
  · have hr : sbInRange s 0 12 = .ok () := sbInRange_ok s 0 12 (by rw [hlen]; decide)
    have hb : s.sb.readRange 0 12 = Config.format.magic := (magicBytes_iff s.sb).2 (h hen)
    simp [hen, sbRead, hr, hb, bind, Except.bind, pure, Except.pure]
  · simp [hen]

theorem magicCheck_error (s : State) (hlen : ValidLength s) (h : ¬ MagicPasses s) :
    magicCheck s = .error (.raised .headerMismatch) := by
  unfold magicCheck
  by_cases hen : s.config.enforceMagic = true
  · have hr : sbInRange s 0 12 = .ok () := sbInRange_ok s 0 12 (by rw [hlen]; decide)
    have hb : ¬ s.sb.readRange 0 12 = Config.format.magic := fun e => h fun _ => (magicBytes_iff s.sb).1 e
    simp [hen, sbRead, hr, hb, bind, Except.bind, pure, Except.pure]
  · exact absurd (fun e => absurd e hen) h

/-! ## The mappings -/

theorem mapPixelWith_ok (P : Config.Perms) (i : Word) (b : BitVec 24) (s : State) (h : i.toNat < 16384) :
    mapPixelWith P i b s = .next (s.setRes (BitVec.ofNat 32 (b.toNat + (P.pixel ⟨i.toNat, h⟩).val))).succeed := by
  simp only [mapPixelWith, pixelOperand_ok i h]; rfl

theorem mapPixelWith_error (P : Config.Perms) (i : Word) (b : BitVec 24) (s : State) (h : ¬ i.toNat < 16384) :
    mapPixelWith P i b s = .next (s.raise scalarDests .indexOutOfRange) := by
  simp only [mapPixelWith, pixelOperand_error i h]; rfl

theorem unmapPixelWith_ok (P : Config.Perms) (o : Word) (b : BitVec 24) (s : State)
    (h : b.toNat ≤ o.toNat ∧ o.toNat - b.toNat < 16384) :
    unmapPixelWith P o b s
      = .next (s.setRes (BitVec.ofNat 32 (P.pixel.symm ⟨o.toNat - b.toNat, h.2⟩).val)).succeed := by
  simp only [unmapPixelWith, offsetOperand_ok o b h]; rfl

theorem unmapPixelWith_error (P : Config.Perms) (o : Word) (b : BitVec 24) (s : State)
    (h : ¬ (b.toNat ≤ o.toNat ∧ o.toNat - b.toNat < 16384)) :
    unmapPixelWith P o b s = .next (s.raise scalarDests .indexOutOfRange) := by
  simp only [unmapPixelWith, offsetOperand_error o b h]; rfl

theorem mapSlotWith_ok (P : Config.Perms) (w : Word) (s : State) (h : w.toNat < 256) :
    mapSlotWith P w s = .next (s.setRes (BitVec.ofNat 32 (P.slot ⟨w.toNat, h⟩).val)).succeed := by
  simp only [mapSlotWith, slotOperand_ok w h]; rfl

theorem mapSlotWith_error (P : Config.Perms) (w : Word) (s : State) (h : ¬ w.toNat < 256) :
    mapSlotWith P w s = .next (s.raise scalarDests .indexOutOfRange) := by
  simp only [mapSlotWith, slotOperand_error w h]; rfl

theorem unmapSlotWith_ok (P : Config.Perms) (w : Word) (s : State) (h : w.toNat < 256) :
    unmapSlotWith P w s = .next (s.setRes (BitVec.ofNat 32 (P.slot.symm ⟨w.toNat, h⟩).val)).succeed := by
  simp only [unmapSlotWith, slotOperand_ok w h]; rfl

theorem unmapSlotWith_error (P : Config.Perms) (w : Word) (s : State) (h : ¬ w.toNat < 256) :
    unmapSlotWith P w s = .next (s.raise scalarDests .indexOutOfRange) := by
  simp only [unmapSlotWith, slotOperand_error w h]; rfl

/-! ## EXTRACT -/

/-- The state a successful EXTRACT leaves (R155, R156, R211). -/
def extracted (P : Config.Perms) (s : State) : State :=
  ({ s with ri := .ofBytes (extractBytes P s.sb), riDim := emblemDim }.setRes 65536).succeed

theorem extractWith_ok (P : Config.Perms) (s : State) (hlen : ValidLength s) (hm : MagicPasses s) :
    extractWith P s = .next (extracted P s) := by
  have hr : sbInRange s Config.format.idxBase (Config.format.idxSize + Config.format.palSize) = .ok () :=
    sbInRange_ok s _ _ (by rw [hlen]; decide)
  simp only [extractWith, formatCheck_ok s hlen, magicCheck_ok s hlen hm, hr]; rfl

theorem extractWith_formatError (P : Config.Perms) (s : State) (h : ¬ ValidLength s) :
    extractWith P s = .next (s.raise scalarDests .formatError) := by
  simp only [extractWith, formatCheck_error s h]; rfl

theorem extractWith_headerMismatch (P : Config.Perms) (s : State) (hlen : ValidLength s) (h : ¬ MagicPasses s) :
    extractWith P s = .next (s.raise scalarDests .headerMismatch) := by
  simp only [extractWith, formatCheck_ok s hlen, magicCheck_error s hlen h]; rfl

/-! ## INJECT -/

/-- What BuildPalette gives for a raster of at most 256 distinct colors (R173). -/
def paletteOf (ri : Memory) : Palette := ⟨firstSeen ri, allPixels.map (palettePos ri)⟩

@[simp] theorem paletteOf_colors (ri : Memory) : (paletteOf ri).colors = firstSeen ri := rfl

@[simp] theorem paletteOf_pos (ri : Memory) : (paletteOf ri).pos = allPixels.map (palettePos ri) := rfl

/-- The save buffer a successful INJECT leaves (R179). -/
def injectedSb (P : Config.Perms) (s : State) : Memory := s.sb.writeRange 36 (stage P s.sb (paletteOf s.ri)).toList

/-- The state a successful INJECT leaves (R175, R181, R211). -/
def injected (P : Config.Perms) (s : State) : State :=
  ({ s with sb := injectedSb P s }.setRes (BitVec.ofNat 32 (distinctColors s.ri))).succeed

theorem emblem_bytes (s : State) (h : EmblemRaster s) : s.riDim.bytes = 65536 := by
  simp [RasterDim.bytes, h.1, h.2]

theorem injectWith_ok (P : Config.Perms) (s : State) (h : InjectReady s) : injectWith P s = .next (injected P s) := by
  obtain ⟨hsize, hlen, hm, hcol⟩ := h
  have hr : riInRange s 0 Config.format.riBytes = .ok () :=
    riInRange_ok s _ _ (by rw [emblem_bytes s hsize]; decide)
  have hs : ∀ n, n = 17408 → sbInRange s Config.format.idxBase n = .ok () := fun n hn =>
    sbInRange_ok s _ _ (by rw [hlen, hn]; decide)
  have hstg : (stage P s.sb (paletteOf s.ri)).toList.length = 17408 := by simp
  have hw : sbWrite s Config.format.idxBase (stage P s.sb (paletteOf s.ri)).toList
      = .ok { s with sb := injectedSb P s } := by
    simp only [sbWrite, hs _ hstg]; rfl
  have hpal : buildPalette s.ri = .ok (paletteOf s.ri) := by
    rw [buildPalette_ok s.ri hcol, paletteOf]
  have hnum : (paletteOf s.ri).colors.length = distinctColors s.ri := by
    rw [paletteOf_colors, length_firstSeen]
  simp only [injectWith, sizeCheck_ok s hsize, formatCheck_ok s hlen, magicCheck_ok s hlen hm, hr, hpal,
    hs (Config.format.idxSize + Config.format.palSize) (by simp), bind, Except.bind, hw, hnum, pure, Except.pure, complete_ok,
    injected]

theorem injectWith_sizeError (P : Config.Perms) (s : State) (h : ¬ EmblemRaster s) :
    injectWith P s = .next (s.raise scalarDests .sizeError) := by
  simp only [injectWith, sizeCheck_error s h]; rfl

theorem injectWith_formatError (P : Config.Perms) (s : State) (hs : EmblemRaster s) (h : ¬ ValidLength s) :
    injectWith P s = .next (s.raise scalarDests .formatError) := by
  simp only [injectWith, sizeCheck_ok s hs, formatCheck_error s h]; rfl

theorem injectWith_headerMismatch (P : Config.Perms) (s : State) (hs : EmblemRaster s) (hlen : ValidLength s)
    (h : ¬ MagicPasses s) : injectWith P s = .next (s.raise scalarDests .headerMismatch) := by
  simp only [injectWith, sizeCheck_ok s hs, formatCheck_ok s hlen, magicCheck_error s hlen h]; rfl

theorem injectWith_capacityExceeded (P : Config.Perms) (s : State) (hs : EmblemRaster s) (hlen : ValidLength s)
    (hm : MagicPasses s) (h : 256 < distinctColors s.ri) :
    injectWith P s = .next (s.raise scalarDests .capacityExceeded) := by
  have hr : riInRange s 0 Config.format.riBytes = .ok () :=
    riInRange_ok s _ _ (by rw [emblem_bytes s hs]; decide)
  simp only [injectWith, sizeCheck_ok s hs, formatCheck_ok s hlen, magicCheck_ok s hlen hm, hr, buildPalette_error s.ri h]
  rfl

/-! ## The bytes INJECT leaves -/

/-- Every byte of the save buffer after INJECT: the staged one inside the blocks, the old one outside (R179, R181). -/
theorem read_injectedSb (P : Config.Perms) (s : State) (a : Nat) :
    (injectedSb P s).read a =
      if h : 36 ≤ a ∧ a < 17444 then (stage P s.sb (paletteOf s.ri))[a - 36]'(by omega) else s.sb.read a := by
  have hstg : (stage P s.sb (paletteOf s.ri)).toList.length = 17408 := by simp
  rw [injectedSb, Memory.read_writeRange, hstg]
  by_cases h : 36 ≤ a ∧ a < 17444
  · rw [if_pos (by omega), dif_pos h, List.getD_eq_getElem _ _ (by rw [hstg]; omega)]
    simp
  · rw [if_neg (by omega), dif_neg h]

/-- The index byte of a pixel after INJECT (R177). -/
theorem read_injected_index (P : Config.Perms) (s : State) (h : distinctColors s.ri ≤ 256) (i : PixelIx) :
    (injectedSb P s).read (36 + (P.pixel i).val) = byteOfSlot (P.slot.symm (slotOfPos (palettePos s.ri i))) := by
  have hi := (P.pixel i).isLt
  have hlen : (paletteOf s.ri).colors.length ≤ 256 := by
    rw [paletteOf_colors, length_firstSeen]; exact h
  have hpos : (paletteOf s.ri).pos.getD i.val 0 = palettePos s.ri i := by
    simp [List.getD_eq_getElem?_getD, i.isLt]
  have hstage := stage_index P s.sb (paletteOf s.ri) hlen i
  rw [hpos] at hstage
  have hk : 36 + (P.pixel i).val - 36 = (P.pixel i).val := by omega
  rw [read_injectedSb, dif_pos (by omega), ← hstage]
  simp only [hk]

/-- The palette entry of a palette position after INJECT (R178). -/
theorem read_injected_entry (P : Config.Perms) (s : State) (h : distinctColors s.ri ≤ 256) (p k : Nat)
    (hp : p < (firstSeen s.ri).length) (hk : k < 4) :
    (injectedSb P s).read (16420 + 4 * p + k) = (colorBytes (firstSeen s.ri)[p]).getD k 0 := by
  have hlen : (paletteOf s.ri).colors.length ≤ 256 := by rw [paletteOf_colors, length_firstSeen]; exact h
  have hp' : p < (paletteOf s.ri).colors.length := by rw [paletteOf_colors]; exact hp
  have hstage := stage_entry P s.sb (paletteOf s.ri) hlen p k hp' hk
  have hp256 : p < 256 := by omega
  have hk' : 16420 + 4 * p + k - 36 = 16384 + 4 * p + k := by omega
  simp only [paletteOf_colors] at hstage
  rw [read_injectedSb, dif_pos (by omega), ← hstage]
  simp only [hk']

/-- After INJECT a pixel uses the physical slot of its palette position (R182, R183). -/
theorem usedSlot_injected (P : Config.Perms) (s : State) (h : distinctColors s.ri ≤ 256) (i : PixelIx) :
    (usedSlot P (injectedSb P s) i).val = palettePos s.ri i := by
  have hp := palettePos_lt s.ri i
  have hread := read_injected_index P s h i
  simp only [usedSlot, indexOffset, physicalOffset, Config.format_idxBase, hread, slotOfByte_byteOfSlot,
    Equiv.apply_symm_apply]
  exact slotOfPos_val _ (by omega)

/-- After INJECT, ExtractPixel gives each pixel's color back (R183). -/
theorem extractPixel_injected (P : Config.Perms) (s : State) (h : distinctColors s.ri ≤ 256) (i : PixelIx) :
    extractPixel P (injectedSb P s) i = pixelColor s.ri i := by
  have hlen : palettePos s.ri i < (firstSeen s.ri).length := by rw [length_firstSeen]; exact palettePos_lt s.ri i
  have hcolor := firstSeen_palettePos s.ri i
  rw [List.getElem?_eq_getElem hlen, Option.some_inj] at hcolor
  have entry := fun k hk => read_injected_entry P s h (palettePos s.ri i) k hlen hk
  rw [hcolor] at entry
  have e0 := entry 0 (by omega)
  rw [Nat.add_zero] at e0
  change palRead _ (usedSlot P _ i) = _
  rw [palRead_eq, usedSlot_injected P s h, e0, entry 1 (by omega), entry 2 (by omega), entry 3 (by omega)]
  rfl

/-- A palette entry INJECT does not use is kept (R182). -/
theorem read_injected_kept (P : Config.Perms) (s : State) (h : distinctColors s.ri ≤ 256) (a : Nat)
    (ha : 16420 + 4 * distinctColors s.ri ≤ a) (ha' : a < 17444) : (injectedSb P s).read a = s.sb.read a := by
  have hl := length_firstSeen s.ri
  have hlen : (paletteOf s.ri).colors.length ≤ 256 := by rw [paletteOf_colors]; omega
  have hlow : 16384 + 4 * (paletteOf s.ri).colors.length ≤ a - 36 := by rw [paletteOf_colors]; omega
  rw [read_injectedSb, dif_pos (by omega), stage_kept P s.sb (paletteOf s.ri) hlen (a - 36) hlow]
  simp [show 36 + (a - 36) = a by omega]

end Sys2Proof.Machine
end

