-- ==== Sys2Proof/Laws/Decode.lean ====
section
/-! SUPPORT. The fields of the words the encoder writes, and the halves of a command word. -/

namespace Sys2Proof

/-- Every term of `Instr` is well formed: its types carry the operand widths. -/
theorem Instr.wellFormed_true (i : Instr) : i.wellFormed = true := by
  cases i <;> simp [Instr.wellFormed] <;> omega

@[simp] theorem opcodeOf_encode (i : Instr) : opcodeOf (encode i) = opcodeFor i := by
  apply BitVec.eq_of_getLsbD_eq
  intro k hk
  simp only [opcodeOf, encode, BitVec.getLsbD_extractLsb', BitVec.getLsbD_append]
  simp [hk, show ¬ 56 + k < 32 by omega, show ¬ 56 + k - 32 < 24 by omega, show 56 + k - 32 - 24 = k by omega]

@[simp] theorem opbOf_encode (i : Instr) : opbOf (encode i) = opbFor i := by
  apply BitVec.eq_of_getLsbD_eq
  intro k hk
  simp only [opbOf, encode, BitVec.getLsbD_extractLsb', BitVec.getLsbD_append]
  simp [hk, show ¬ 32 + k < 32 by omega]

@[simp] theorem opaOf_encode (i : Instr) : opaOf (encode i) = opaFor i := by
  apply BitVec.eq_of_getLsbD_eq
  intro k hk
  simp only [opaOf, encode, BitVec.getLsbD_extractLsb', BitVec.getLsbD_append]
  simp [hk]

/-- The two halves of a command word make it up again (R80, R88). -/
@[simp] theorem commandWord_halves (w : CommandWord) : commandWord (cmdHiOf w) (cmdAOf w) = w := by
  apply BitVec.eq_of_getLsbD_eq
  intro k hk
  simp only [commandWord, cmdHiOf, cmdAOf, BitVec.getLsbD_append, BitVec.getLsbD_extractLsb']
  by_cases h : k < 32
  · simp [h]
  · simp [h, show k - 32 < 32 by omega, show 32 + (k - 32) = k by omega]

@[simp] theorem cmdHiOf_commandWord (hi lo : Word) : cmdHiOf (commandWord hi lo) = hi := by
  apply BitVec.eq_of_getLsbD_eq
  intro k hk
  simp only [commandWord, cmdHiOf, BitVec.getLsbD_append, BitVec.getLsbD_extractLsb']
  simp [hk]

@[simp] theorem cmdAOf_commandWord (hi lo : Word) : cmdAOf (commandWord hi lo) = lo := by
  apply BitVec.eq_of_getLsbD_eq
  intro k hk
  simp only [commandWord, cmdAOf, BitVec.getLsbD_append, BitVec.getLsbD_extractLsb']
  simp [hk]

/-- The lanes of the OPA that FMT-RGBA assembles (R81, R87). -/
theorem lanes_of_append (r g b a : Byte) :
    laneR (a ++ b ++ g ++ r) = r ∧ laneG (a ++ b ++ g ++ r) = g ∧ laneB (a ++ b ++ g ++ r) = b
      ∧ laneA (a ++ b ++ g ++ r) = a := by
  refine ⟨?_, ?_, ?_, ?_⟩ <;> apply BitVec.eq_of_getLsbD_eq <;> intro k hk <;>
    simp only [laneR, laneG, laneB, laneA, BitVec.getLsbD_append, BitVec.getLsbD_extractLsb']
  · simp [hk]
  · simp [hk]
  · simp [hk, show ¬ 16 + k < 8 by omega, show ¬ 16 + k - 8 < 8 by omega, show 16 + k - 8 - 8 = k by omega]
  · simp [hk, show ¬ 24 + k < 8 by omega, show ¬ 24 + k - 8 < 8 by omega, show ¬ 24 + k - 8 - 8 < 8 by omega,
      show 24 + k - 8 - 8 - 8 = k by omega]

end Sys2Proof
end

