-- ==== Sys2Proof/Laws/Exec.lean ====
section
/-! SUPPORT. What a command can do, once for all of them: every later fact about `exec` is a short case analysis. -/

namespace Sys2Proof.Machine

/-- EXTRACT's three ends, in the order of its checks (R157). -/
theorem extractWith_cases (P : Config.Perms) (s : State) :
    extractWith P s = .next (s.raise scalarDests .formatError) ∨
    extractWith P s = .next (s.raise scalarDests .headerMismatch) ∨
    (ExtractReady s ∧ extractWith P s = .next (extracted P s)) := by
  by_cases hlen : ValidLength s
  · by_cases hm : MagicPasses s
    · exact .inr (.inr ⟨⟨hlen, hm⟩, extractWith_ok P s hlen hm⟩)
    · exact .inr (.inl (extractWith_headerMismatch P s hlen hm))
  · exact .inl (extractWith_formatError P s hlen)

/-- INJECT's five ends, in the order of its checks (R170). -/
theorem injectWith_cases (P : Config.Perms) (s : State) :
    injectWith P s = .next (s.raise scalarDests .sizeError) ∨
    injectWith P s = .next (s.raise scalarDests .formatError) ∨
    injectWith P s = .next (s.raise scalarDests .headerMismatch) ∨
    injectWith P s = .next (s.raise scalarDests .capacityExceeded) ∨
    (InjectReady s ∧ injectWith P s = .next (injected P s)) := by
  by_cases hs : EmblemRaster s
  · by_cases hlen : ValidLength s
    · by_cases hm : MagicPasses s
      · by_cases hc : distinctColors s.ri ≤ 256
        · exact .inr (.inr (.inr (.inr ⟨⟨hs, hlen, hm, hc⟩, injectWith_ok P s ⟨hs, hlen, hm, hc⟩⟩)))
        · exact .inr (.inr (.inr (.inl (injectWith_capacityExceeded P s hs hlen hm (by omega)))))
      · exact .inr (.inr (.inl (injectWith_headerMismatch P s hs hlen hm)))
    · exact .inr (.inl (injectWith_formatError P s hs hlen))
  · exact .inl (injectWith_sizeError P s hs)

/-- What a command can do: raise an error its rule lists, with RES its destination; write one scalar; write the four
channels; replace the raster; or replace the blocks of the save buffer. -/
theorem exec_cases (i : Instr) (s : State) :
    (∃ e, e ≠ .ok ∧ e ≠ .ioError ∧ destsOf i = [.res] ∧ e.num ∈ possibleCodes i ∧
      exec i s = .next (s.raise scalarDests e)) ∨
    (∃ v, destsOf i = [.res] ∧ i ≠ .extract ∧ i ≠ .inject ∧ exec i s = .next (s.setRes v).succeed) ∨
    (∃ w, i = .unpackColor w ∧ exec i s = .next (s.setChannels (unpack w)).succeed) ∨
    (i = .extract ∧ ExtractReady s ∧ exec i s = .next (extracted Config.perms s)) ∨
    (i = .inject ∧ InjectReady s ∧ exec i s = .next (injected Config.perms s)) := by
  cases i with
  | mapPixel ix b =>
    by_cases h : ix.toNat < 16384
    · exact .inr (.inl ⟨_, rfl, by simp, by simp, mapPixelWith_ok Config.perms ix b s h⟩)
    · exact .inl ⟨_, by simp, by simp, rfl, by simp [possibleCodes, StatusCode.num],
        mapPixelWith_error Config.perms ix b s h⟩
  | unmapPixel o b =>
    by_cases h : b.toNat ≤ o.toNat ∧ o.toNat - b.toNat < 16384
    · exact .inr (.inl ⟨_, rfl, by simp, by simp, unmapPixelWith_ok Config.perms o b s h⟩)
    · exact .inl ⟨_, by simp, by simp, rfl, by simp [possibleCodes, StatusCode.num],
        unmapPixelWith_error Config.perms o b s h⟩
  | packColor r g b a => exact .inr (.inl ⟨_, rfl, by simp, by simp, rfl⟩)
  | unpackColor w => exact .inr (.inr (.inl ⟨w, rfl, rfl⟩))
  | mapSlot w =>
    by_cases h : w.toNat < 256
    · exact .inr (.inl ⟨_, rfl, by simp, by simp, mapSlotWith_ok Config.perms w s h⟩)
    · exact .inl ⟨_, by simp, by simp, rfl, by simp [possibleCodes, StatusCode.num],
        mapSlotWith_error Config.perms w s h⟩
  | unmapSlot w =>
    by_cases h : w.toNat < 256
    · exact .inr (.inl ⟨_, rfl, by simp, by simp, unmapSlotWith_ok Config.perms w s h⟩)
    · exact .inl ⟨_, by simp, by simp, rfl, by simp [possibleCodes, StatusCode.num],
        unmapSlotWith_error Config.perms w s h⟩
  | extract =>
    rcases extractWith_cases Config.perms s with h | h | ⟨hr, h⟩
    · exact .inl ⟨_, by simp, by simp, rfl, by simp [possibleCodes, StatusCode.num], h⟩
    · exact .inl ⟨_, by simp, by simp, rfl, by simp [possibleCodes, StatusCode.num], h⟩
    · exact .inr (.inr (.inr (.inl ⟨rfl, hr, h⟩)))
  | inject =>
    rcases injectWith_cases Config.perms s with h | h | h | h | ⟨hr, h⟩
    · exact .inl ⟨_, by simp, by simp, rfl, by simp [possibleCodes, StatusCode.num], h⟩
    · exact .inl ⟨_, by simp, by simp, rfl, by simp [possibleCodes, StatusCode.num], h⟩
    · exact .inl ⟨_, by simp, by simp, rfl, by simp [possibleCodes, StatusCode.num], h⟩
    · exact .inl ⟨_, by simp, by simp, rfl, by simp [possibleCodes, StatusCode.num], h⟩
    · exact .inr (.inr (.inr (.inr ⟨rfl, hr, h⟩)))

end Sys2Proof.Machine
end

