-- ==== Sys2Proof/Laws/PerInstr.lean ====
section
/-! SUPPORT. A fact about every command as syntax, one lemma per constructor of `Instr`. -/

namespace Sys2Proof.Laws.RowSelects

/-- The word the encoder writes for a command selects the row of R84's table that bears its mnemonic. -/
def Statement (i : Instr) : Prop := ∃ row ∈ opcodeRows, row.mnemonic = mnemonicOf i ∧ row.selects (encode i) = true

/-- A word whose bits under the mask are the row's pattern. -/
theorem selects_of_bits (row : OpcodeRow) (w : CommandWord)
    (h : ∀ k, k < 64 → (w.getLsbD k && row.mask.getLsbD k) = row.pattern.getLsbD k) : row.selects w = true := by
  rw [OpcodeRow.selects, beq_iff_eq]
  apply BitVec.eq_of_getLsbD_eq
  intro k hk
  rw [BitVec.getLsbD_and, h k hk]

theorem bits_of_encode (i : Instr) (k : Nat) :
    (encode i).getLsbD k = if k < 32 then (opaFor i).getLsbD k
      else if k - 32 < 24 then (opbFor i).getLsbD (k - 32) else (opcodeFor i).getLsbD (k - 56) := by
  simp only [encode, BitVec.getLsbD_append]
  split
  · rfl
  · split
    · rfl
    · rw [Nat.sub_sub]

/-- A row whose mask covers the OPCODE alone (R84, FMT-AB). -/
theorem selects_opcode (i : Instr) (row : OpcodeRow) (hm : row.mask = 0xFF00000000000000)
    (hp : row.pattern = opcodeFor i ++ 0#24 ++ 0#32) : row.selects (encode i) = true := by
  apply selects_of_bits
  intro k hk
  rw [bits_of_encode, hm, hp]
  simp only [BitVec.getLsbD_append]
  have hmask : ∀ j < 64, (0xFF00000000000000 : CommandWord).getLsbD j = decide (56 ≤ j) := by decide
  rw [hmask k hk]
  by_cases h1 : k < 32
  · simp [h1, show ¬ 56 ≤ k by omega]
  · by_cases h2 : k - 32 < 24
    · simp [h1, h2, show ¬ 56 ≤ k by omega]
    · simp [h1, h2, show 56 ≤ k by omega, show k - 32 - 24 = k - 56 by omega]

/-- A row whose mask covers OPCODE and OPB (R84, FMT-A and FMT-RGBA). -/
theorem selects_opb (i : Instr) (row : OpcodeRow) (hm : row.mask = 0xFFFFFFFF00000000)
    (hp : row.pattern = opcodeFor i ++ 0#24 ++ 0#32) (hb : opbFor i = 0) : row.selects (encode i) = true := by
  apply selects_of_bits
  intro k hk
  rw [bits_of_encode, hm, hp, hb]
  simp only [BitVec.getLsbD_append]
  have hmask : ∀ j < 64, (0xFFFFFFFF00000000 : CommandWord).getLsbD j = decide (32 ≤ j) := by decide
  rw [hmask k hk]
  by_cases h1 : k < 32
  · simp [h1, show ¬ 32 ≤ k by omega]
  · by_cases h2 : k - 32 < 24
    · simp [h1, h2]
    · simp [h1, h2, show 32 ≤ k by omega, show k - 32 - 24 = k - 56 by omega]

theorem mapPixel (i : Word) (b : BitVec 24) : Statement (.mapPixel i b) :=
  ⟨⟨"MAP_PIXEL", 0x0100000000000000, 0xFF00000000000000⟩, by simp [opcodeRows], rfl,
    selects_opcode (.mapPixel i b) _ rfl (by simp only [opcodeFor]; decide)⟩

theorem unmapPixel (o : Word) (b : BitVec 24) : Statement (.unmapPixel o b) :=
  ⟨⟨"UNMAP_PIXEL", 0x0200000000000000, 0xFF00000000000000⟩, by simp [opcodeRows], rfl,
    selects_opcode (.unmapPixel o b) _ rfl (by simp only [opcodeFor]; decide)⟩

theorem packColor (r g b a : Byte) : Statement (.packColor r g b a) :=
  ⟨⟨"PACK_COLOR", 0x0300000000000000, 0xFFFFFFFF00000000⟩, by simp [opcodeRows], rfl,
    selects_opb (.packColor r g b a) _ rfl (by simp only [opcodeFor]; decide) rfl⟩

theorem unpackColor (w : Word) : Statement (.unpackColor w) :=
  ⟨⟨"UNPACK_COLOR", 0x0400000000000000, 0xFFFFFFFF00000000⟩, by simp [opcodeRows], rfl,
    selects_opb (.unpackColor w) _ rfl (by simp only [opcodeFor]; decide) rfl⟩

theorem mapSlot (s : Word) : Statement (.mapSlot s) :=
  ⟨⟨"MAP_SLOT", 0x0500000000000000, 0xFFFFFFFF00000000⟩, by simp [opcodeRows], rfl,
    selects_opb (.mapSlot s) _ rfl (by simp only [opcodeFor]; decide) rfl⟩

theorem unmapSlot (t : Word) : Statement (.unmapSlot t) :=
  ⟨⟨"UNMAP_SLOT", 0x0600000000000000, 0xFFFFFFFF00000000⟩, by simp [opcodeRows], rfl,
    selects_opb (.unmapSlot t) _ rfl (by simp only [opcodeFor]; decide) rfl⟩

theorem extract : Statement .extract :=
  ⟨⟨"EXTRACT", 0x1000000000000000, 0xFFFFFFFFFFFFFFFF⟩, by simp [opcodeRows], rfl, by decide⟩

theorem inject : Statement .inject :=
  ⟨⟨"INJECT", 0x1100000000000000, 0xFFFFFFFFFFFFFFFF⟩, by simp [opcodeRows], rfl, by decide⟩

end Sys2Proof.Laws.RowSelects
end

