-- ==== Sys2Proof/Laws/Step.lean ====
section
/-! SUPPORT. What a launch and a step can do, once: the provers cite these instead of unfolding the host port. -/

namespace Sys2Proof.Machine

/-- A launch runs the decoded command, or records IllegalCommand (R85, R86). -/
theorem launch_cases (s : State) :
    (∃ i, decode s.command = .ok i ∧ launch s = exec i s) ∨
    (∃ e, decode s.command = .error e ∧ launch s = .next s.illegal) := by
  unfold launch
  cases h : decode s.command with
  | ok i => exact .inl ⟨i, rfl, rfl⟩
  | error e => exact .inr ⟨e, rfl, rfl⟩

/-- The register an access reaches sits at the accessed offset, and the access is 32 bits wide (R24). -/
theorem accessedReg_eq_some (bits offset : Nat) (r : HostReg) :
    accessedReg bits offset = some r ↔ bits = 32 ∧ offset = r.offset := by
  constructor
  · intro h
    unfold accessedReg at h
    split at h
    · refine ⟨by assumption, ?_⟩
      unfold HostReg.ofOffset at h
      split at h <;> simp at h <;> subst h <;> rfl
    · simp at h
  · rintro ⟨rfl, rfl⟩
    cases r <;> rfl

/-- STOP_IF_ERROR changes nothing but the actions still to come (R245). -/
theorem stopIfError_cases (s : State) :
    (s.status.code = 0 ∧ s.stopIfError = s) ∨ (s.status.code ≠ 0 ∧ s.stopIfError = { s with pending := [] }) := by
  unfold State.stopIfError
  by_cases h : s.status.code = 0
  · exact .inl ⟨h, by rw [if_pos h]⟩
  · exact .inr ⟨h, by rw [if_neg h]⟩

/-- What a step can do when it answers a next state: nothing (the program has ended), RESET, a launch, a register write or
a read (of a register or a whole buffer), an attach, or STOP_IF_ERROR. -/
theorem step_cases (s t : State) (h : step s = .next t) :
    (s.pending = [] ∧ t = s) ∨
    (∃ rest, s.pending = .reset :: rest ∧ t = (s.takeAction rest).resetBlock) ∨
    (∃ v rest, s.pending = .wr 32 HostReg.cmdHi.offset v :: rest ∧ launch { s.takeAction rest with cmdHi := v } = .next t) ∨
    (∃ r v rest, s.pending = .wr 32 r.offset v :: rest ∧ r ≠ .cmdHi ∧ (s.takeAction rest).writeReg r v = .next t ∧
      ∃ a c, t = { s.takeAction rest with cmdA := a, config := c }) ∨
    (∃ action rest reply, s.pending = action :: rest ∧ action ≠ .reset ∧ action ≠ .stopIfError ∧
      t = { s.takeAction rest with reply := some reply }) ∨
    (∃ bytes rest, s.pending = .attachSb bytes :: rest ∧ bytes.length < 2 ^ 32 ∧
      t = { s.takeAction rest with sb := .ofBytes bytes, sbLen := BitVec.ofNat 32 bytes.length }) ∨
    (∃ w h bytes rest, s.pending = .attachRi w h bytes :: rest ∧ w < 65536 ∧ h < 65536 ∧ bytes.length = w * h * 4 ∧
      t = { s.takeAction rest with ri := .ofBytes bytes, riDim := ⟨BitVec.ofNat 16 w, BitVec.ofNat 16 h⟩ }) ∨
    (∃ rest, s.pending = .stopIfError :: rest ∧ t = (s.takeAction rest).stopIfError) := by
  unfold step hostStep at h
  cases hp : s.pending with
  | nil => exact .inl ⟨rfl, by simpa [hp] using h.symm⟩
  | cons action rest =>
    simp only [hp] at h
    refine .inr ?_
    cases action with
    | reset => exact .inl ⟨rest, rfl, by simpa [perform] using h.symm⟩
    | wr bits offset v =>
      simp only [perform, writeAction] at h
      cases hr : accessedReg bits offset with
      | none => simp [hr] at h
      | some r =>
        obtain ⟨rfl, rfl⟩ := (accessedReg_eq_some bits offset r).1 hr
        simp only [hr] at h
        by_cases hc : r = .cmdHi
        · subst hc; exact .inr (.inl ⟨v, rest, rfl, h⟩)
        · refine .inr (.inr (.inl ⟨r, v, rest, rfl, hc, h, ?_⟩))
          cases r <;> simp only [State.writeReg, Host.Outcome.next.injEq] at h
          case cmdHi => exact absurd rfl hc
          case cmdA => exact ⟨v, _, h.symm⟩
          case config => exact ⟨_, .ofWord v, h.symm⟩
          all_goals exact ⟨_, _, h.symm⟩
    | rd bits offset =>
      simp only [perform, readAction] at h
      cases hr : accessedReg bits offset with
      | none => simp [hr] at h
      | some r =>
        simp only [hr] at h
        cases hv : (s.takeAction rest).readReg r with
        | error f => simp [hv] at h
        | ok v =>
          simp only [hv, Host.Outcome.next.injEq] at h
          exact .inr (.inr (.inr (.inl ⟨_, rest, _, rfl, by simp, by simp, h.symm⟩)))
    | attachSb bytes =>
      simp only [perform, attachSbAction] at h
      split at h
      · rename_i hlen
        exact .inr (.inr (.inr (.inr (.inl ⟨bytes, rest, rfl, hlen, by simpa using h.symm⟩))))
      · simp at h
    | attachRi w hh bytes =>
      simp only [perform, attachRiAction] at h
      split at h
      · rename_i hshape
        exact .inr (.inr (.inr (.inr (.inr (.inl
          ⟨w, hh, bytes, rest, rfl, hshape.1, hshape.2.1, hshape.2.2, by simpa using h.symm⟩)))))
      · simp at h
    | readSb =>
      simp only [perform, Host.Outcome.next.injEq] at h
      exact .inr (.inr (.inr (.inl ⟨_, rest, _, rfl, by simp, by simp, h.symm⟩)))
    | readRi =>
      simp only [perform, Host.Outcome.next.injEq] at h
      exact .inr (.inr (.inr (.inl ⟨_, rest, _, rfl, by simp, by simp, h.symm⟩)))
    | stopIfError =>
      exact .inr (.inr (.inr (.inr (.inr (.inr ⟨rest, rfl, by simpa [perform] using h.symm⟩)))))
    | otherBufferAccess => simp [perform] at h

end Sys2Proof.Machine
end

