-- ==== Sys2Proof/Tests/Slice0.lean ====
section
/-! SUPPORT. Tests: expected values from spec/95_test_vectors.md, refused ill-formed terms, and for every statement with
hypotheses a concrete state and operands that meet them. -/

namespace Sys2Proof.Tests

open Sys2Proof.Machine

/-! ## Helpers -/

/-- RES after a command, where it answers a next state. -/
def resOf : Host.Outcome State Fault Refusal → Option Word
  | .next t => t.res
  | _ => none

/-- STATUS after a step, as the host reads it, where it answers a next state. -/
def statusOf : Host.Outcome State Fault Refusal → Option Word
  | .next t => some t.status.word
  | _ => none

/-- What the host got back from a step, where it answers a next state. -/
def replyOf : Host.Outcome State Fault Refusal → Option Reply
  | .next t => t.reply
  | _ => none

/-- The fault a step ends in. -/
def faultOf : Host.Outcome State Fault Refusal → Option Fault
  | .fault f => some f
  | _ => none

/-- The refusal a step ends in. -/
def refusalOf : Host.Outcome State Fault Refusal → Option Refusal
  | .refused r => some r
  | _ => none

/-- The test-only parameters T-X (95_test_vectors.md section 2). -/
def tX : Config.Perms where
  pixel :=
    { toFun := fun i => ⟨5 * i.val % 16384, by omega⟩
      invFun := fun k => ⟨3277 * k.val % 16384, by omega⟩
      left_inv := fun i => Fin.ext (by have := i.isLt; simp only; omega)
      right_inv := fun k => Fin.ext (by have := k.isLt; simp only; omega) }
  slot :=
    { toFun := fun s => ⟨3 * s.val % 256, by omega⟩
      invFun := fun t => ⟨171 * t.val % 256, by omega⟩
      left_inv := fun s => Fin.ext (by have := s.isLt; simp only; omega)
      right_inv := fun t => Fin.ext (by have := t.isLt; simp only; omega) }

/-- The test-only parameters T-ID: both permutations the identity (95_test_vectors.md section 2). -/
def tId : Config.Perms := ⟨Equiv.refl _, Equiv.refl _⟩

/-- The reset state with a program to run. -/
def running (program : List HostAction) : State := State.reset.loadProgram program

/-- A state whose save buffer has the right length and holds only zero bytes. -/
def saveState : State := { State.reset with sbLen := 17472 }

/-- As `saveState`, with a 128 by 128 raster of zero bytes. -/
def emblemState : State := { saveState with riDim := ⟨128, 128⟩ }

/-- As `saveState`, with the magic enforced: its zero bytes are not MAGIC. -/
def strictState : State := { saveState with config := ⟨true⟩ }

/-- A save buffer with all index bytes 0 and the entry of physical slot 0 `00 00 00 FF` (95_test_vectors.md 3.5, T-X). -/
def blackSave : Memory := ⟨[(16423, 0xFF)]⟩

/-- The index and palette blocks of vector X-NC (95_test_vectors.md section 3.6): every index byte 5, slot 5 `00 00 00 FF`. -/
def ncSave : Memory := ⟨(List.range 16384).map (fun k => (36 + k, 5)) ++ [(16443, 0xFF)]⟩

/-- The raster of one color `00 00 00 FF` that `blackSave` extracts to. -/
def blackRaster : Memory := .ofBytes (extractBytes tX blackSave)

/-- The colors of RS257 up to its 257th distinct one (95_test_vectors.md section 3.6). -/
def color257 (i : Fin 257) : Color := ⟨BitVec.ofNat 8 i.val, BitVec.ofNat 8 (i.val / 256), 0, 0xFF⟩

/-- A raster of more than 256 distinct colors. -/
def raster257 : Memory := .ofBytes ((List.finRange 257).flatMap fun i => colorBytes (color257 i))

/-! ## Decoding (95_test_vectors.md section 3.1) -/

theorem test_decode_mapPixel : decode 0x0100002400000001 = .ok (.mapPixel 1 36) := by decide
theorem test_decode_mapPixel_allOnes : decode 0x01FFFFFFFFFFFFFF = .ok (.mapPixel 0xFFFFFFFF 0xFFFFFF) := by decide
theorem test_decode_unmapPixel : decode 0x0200002400000029 = .ok (.unmapPixel 41 36) := by decide
theorem test_decode_packColor : decode 0x0300000044332211 = .ok (.packColor 0x11 0x22 0x33 0x44) := by decide
theorem test_decode_unpackColor : decode 0x04000000FF000000 = .ok (.unpackColor 0xFF000000) := by decide
theorem test_decode_mapSlot : decode 0x0500000000000002 = .ok (.mapSlot 2) := by decide
theorem test_decode_unmapSlot : decode 0x0600000000000002 = .ok (.unmapSlot 2) := by decide
theorem test_decode_extract : decode 0x1000000000000000 = .ok .extract := by decide
theorem test_decode_inject : decode 0x1100000000000000 = .ok .inject := by decide
theorem test_decode_reserved :
    [0x00, 0x07, 0x0F, 0x12, 0xFF].map (fun op : BitVec 8 => decode (op ++ 0#56))
      = [0x00, 0x07, 0x0F, 0x12, 0xFF].map (fun op => .error (.reservedOpcode op)) := by decide
theorem test_decode_nonzeroField :
    [0x0300000100000000, 0x0580000000000000, 0x1000000000000001, 0x1100000100000000].map decode
      = [0x03, 0x05, 0x10, 0x11].map (fun op => .error (.nonzeroField op)) := by decide
theorem test_encode_packColor : encode (.packColor 0x11 0x22 0x33 0x44) = 0x0300000044332211 := by decide
theorem test_tableWord_unmapPixel : decodeTableWord 64 0x0200002400000029 = some (.unmapPixel 41 36) := by decide
theorem test_rows_disjoint :
    opcodeRows.Pairwise fun r r' => r.pattern &&& r'.mask &&& r.mask ≠ r'.pattern &&& r.mask := by decide

/-! ## Ill-formed terms are refused, one for each check of WellFormed.lean -/

theorem test_illFormed_mapPixel_i : (AsmLine.mapPixel 0x100000000 36).wellFormed = false := by decide
theorem test_illFormed_mapPixel_b : (AsmLine.mapPixel 1 0x1000000).wellFormed = false := by decide
theorem test_illFormed_unmapPixel :
    (AsmLine.unmapPixel 0x100000000 0).wellFormed = false ∧ (AsmLine.unmapPixel 0 0x1000000).wellFormed = false := by
  decide
theorem test_illFormed_packColor :
    (AsmLine.packColor 256 0 0 0).wellFormed = false ∧ (AsmLine.packColor 0 256 0 0).wellFormed = false ∧
    (AsmLine.packColor 0 0 256 0).wellFormed = false ∧ (AsmLine.packColor 0 0 0 256).wellFormed = false := by decide
theorem test_illFormed_oneOperand :
    (AsmLine.unpackColor 0x100000000).wellFormed = false ∧ (AsmLine.mapSlot 0x100000000).wellFormed = false ∧
    (AsmLine.unmapSlot 0x100000000).wellFormed = false ∧ (AsmLine.mapPixelDefault 0x100000000).wellFormed = false ∧
    (AsmLine.unmapPixelDefault 0x100000000).wellFormed = false := by decide
theorem test_illFormed_mapXY :
    (AsmLine.mapXY 128 0).wellFormed = false ∧ (AsmLine.mapXY 0 128).wellFormed = false := by decide
theorem test_illFormed_launch : (AsmLine.launch 0x10000000000000000).wellFormed = false := by decide
theorem test_illFormed_wrValue : (AsmLine.wr 0 0x100000000).wellFormed = false := by decide
theorem test_illFormed_access :
    (HostAction.rd 32 0x2C).wellFormed = false ∧ (HostAction.rd 32 0x02).wellFormed = false ∧
    (HostAction.wr 16 0x00 0).wellFormed = false := by decide
theorem test_illFormed_attachRi_length : (HostAction.attachRi 1 1 [1, 2, 3]).wellFormed = false := by decide
theorem test_illFormed_attachRi_width : (HostAction.attachRi 65536 0 []).wellFormed = false := by decide
theorem test_illFormed_attachRi_height : (HostAction.attachRi 0 65536 []).wellFormed = false := by decide
theorem test_illFormed_attachSb : (HostAction.attachSb (List.replicate (2 ^ 32) 0)).wellFormed = false := by
  simp only [HostAction.wellFormed, List.length_replicate, decide_eq_false_iff_not]
  omega
theorem test_illFormed_otherBufferAccess : HostAction.otherBufferAccess.wellFormed = false := by decide

/-! ## The commands (95_test_vectors.md sections 3.2 to 3.4, under T-X) -/

theorem test_mapPixel_tX :
    [(1, 36), (3277, 36), (16383, 36), (16383, 0xFFFFFF)].map (fun p => resOf (mapPixelWith tX p.1 p.2 .reset))
      = [some 41, some 37, some 16415, some 16793594] := by decide
theorem test_mapPixel_outOfRange : statusOf (exec (.mapPixel 16384 36) .reset) = some 0x103 := by decide
theorem test_unmapPixel_tX :
    [(37, 36), (41, 36), (16419, 36), (5, 0)].map (fun p => resOf (unmapPixelWith tX p.1 p.2 .reset))
      = [some 3277, some 1, some 13107, some 1] := by decide
theorem test_unmapPixel_outOfRange :
    [(35, 36), (16420, 36), (0, 1)].map (fun p => statusOf (exec (.unmapPixel p.1 p.2) .reset))
      = [some 0x103, some 0x103, some 0x103] := by decide
theorem test_packColor : resOf (exec (.packColor 0x11 0x22 0x33 0x44) .reset) = some 0x44332211 := by decide
theorem test_packColor_opaqueBlack : resOf (exec (.packColor 0 0 0 255) .reset) = some 0xFF000000 := by decide
theorem test_unpackColor :
    (match exec (.unpackColor 0x44332211) .reset with
      | .next t => (t.resR, t.resG, t.resB, t.resA)
      | _ => (none, none, none, none)) = (some 0x11, some 0x22, some 0x33, some 0x44) := by decide
theorem test_unpackColor_alphaUntouched :
    (match exec (.unpackColor 0x80000001) .reset with | .next t => t.resA | _ => none) = some 128 := by decide
theorem test_mapSlot_tX :
    [1, 85, 86, 171, 255].map (fun s => resOf (mapSlotWith tX s .reset))
      = [some 3, some 255, some 2, some 1, some 253] := by decide
theorem test_mapSlot_outOfRange : statusOf (exec (.mapSlot 256) .reset) = some 0x103 := by decide
theorem test_unmapSlot_tX :
    [1, 2, 3, 253, 255].map (fun t => resOf (unmapSlotWith tX t .reset))
      = [some 171, some 86, some 1, some 255, some 85] := by decide
theorem test_unmapSlot_outOfRange : resOf (exec (.unmapSlot 256) { State.reset with res := some 7 }) = none := by decide
theorem test_extract_afterReset : statusOf (exec .extract .reset) = some 0x101 := by decide
theorem test_inject_afterReset : statusOf (exec .inject .reset) = some 0x105 := by decide

/-! ## The composition layer (95_test_vectors.md sections 3.5 and 3.6) -/

/-- Vector E-3: index byte 2 at offset 41 selects slot `SlotPerm(2) = 6`, red. -/
theorem test_extractPixel_E3 :
    extractPixel tX ⟨[(41, 2), (16423, 0xFF), (16444, 0xFF), (16447, 0xFF)]⟩ 1 = ⟨0xFF, 0, 0, 0xFF⟩ := by decide

/-- Vector E-2: index byte 1 selects slot `SlotPerm(1) = 3`. -/
theorem test_extractPixel_E2 :
    extractPixel tX ⟨[(36, 1), (16432, 0x10), (16433, 0x20), (16434, 0x30), (16435, 0x40)]⟩ 0
      = ⟨0x10, 0x20, 0x30, 0x40⟩ := by decide

/-- Vector E-6: bytes [0,12) differ from MAGIC and the magic is enforced. -/
theorem test_extract_headerMismatch : statusOf (exec .extract strictState) = some 0x102 := by decide

/-- R173 on a few pixels: the palette in first-seen order and each pixel's position. -/
theorem test_scanColors :
    scanColors [] [⟨0xFF, 0, 0, 0xFF⟩, ⟨0, 0, 0, 0xFF⟩, ⟨0, 0, 0, 0xFF⟩, ⟨0xFF, 0, 0, 0xFF⟩]
      = .ok ⟨[⟨0xFF, 0, 0, 0xFF⟩, ⟨0, 0, 0, 0xFF⟩], [0, 1, 1, 0]⟩ := by decide

/-- Vector I-1: palette position 1 is staged as the index byte `SlotPerm⁻¹(1)` = 0xAB. -/
theorem test_indexByte_I1 : byteOfSlot (tX.slot.symm (slotOfPos 1)) = 0xAB := by decide

/-- Vector I-7: the raster is 128 by 127, and the save buffer's length is not looked at. -/
theorem test_inject_sizeFirst : statusOf (exec .inject { State.reset with riDim := ⟨128, 127⟩ }) = some 0x105 := by decide

/-- Vector I-8: the raster is 128 by 128, the save buffer 100 bytes. -/
theorem test_inject_formatSecond :
    statusOf (exec .inject { State.reset with riDim := ⟨128, 128⟩, sbLen := 100 }) = some 0x101 := by decide

/-! ## The host port and the programs (95_test_vectors.md sections 3.7 to 3.9 and 4) -/

theorem test_placed_command_runs :
    resOf (step (State.reset.withFetchWord 64 0x0300000044332211)) = some 0x44332211 := by decide
theorem test_launch_zero_word : statusOf (step (running [.wr 32 4 0])) = some 0x107 := by decide
theorem test_write_cmdA_launches_nothing : statusOf (step (running [.wr 32 0 0xDEADBEEF])) = some 0 := by decide
theorem test_config_keeps_bit_0 :
    replyOf (step { running [.rd 32 0x0C] with config := .ofWord 0xFFFFFFFF }) = some (.word 1) := by decide
theorem test_write_status_ignored : statusOf (step (running [.wr 32 8 5])) = some 0 := by decide
theorem test_read_noValue_faults : faultOf (step (running [.rd 32 0x10])) = some (.noValue .res) := by decide
/-- 95_test_vectors.md section 3.7, step 2: after a failed MAP_SLOT 256 a `RD RES` is a fault, though RES was written before. -/
theorem test_read_afterFailure_faults :
    (match exec (.mapSlot 256) { running [.rd 32 0x10] with res := some 0x04030201 } with
      | .next t => faultOf (step t)
      | _ => none) = some (.noValue .res) := by decide
theorem test_read_unlisted_refused :
    refusalOf (step (running [.rd 32 0x2C])) = some (.registerAccess 32 0x2C) := by decide
theorem test_read_halfword_refused :
    refusalOf (step (running [.rd 16 0])) = some (.registerAccess 16 0) := by decide
theorem test_attachRi_refused : refusalOf (step (running [.attachRi 1 1 [1]])) = some .attachRiShape := by decide
theorem test_otherBufferAccess_refused :
    refusalOf (step (running [.otherBufferAccess])) = some .otherBufferAccess := by decide
theorem test_riDim_word : RasterDim.word ⟨128, 128⟩ = 0x00800080 := by decide
theorem test_readRi :
    replyOf (step { running [.readRi] with riDim := ⟨1, 1⟩, ri := .ofBytes [1, 2, 0, 4] })
      = some (.raster ⟨1, 1⟩ [1, 2, 0, 4]) := by decide
theorem test_stopIfError_ends :
    (match step { running [.stopIfError, .reset] with status := ⟨7, true⟩ } with | .next t => t.pending | _ => [.reset])
      = [] := by decide
theorem test_reset_keeps_program :
    (match step { running [.reset, .readSb] with cmdA := 5 } with | .next t => (t.cmdA, t.hostIndex, t.pending) | _ => (5, 0, []))
      = (0, 1, [.readSb]) := by decide

/-- Program P2's first seven actions from its text: the illegal word keeps RES. -/
theorem test_program_P2 :
    assembleProgram
      ["RESET".toList, "PACK_COLOR 0x11, 0x22, 0x33, 0x44 ; comment".toList, "LAUNCH 0x03000001_00000000".toList,
        "STOP_IF_ERROR".toList]
      = some [.reset, .wr 32 0 0x44332211, .wr 32 4 0x03000000, .wr 32 0 0, .wr 32 4 0x03000001, .stopIfError] := by
  decide
theorem test_assemble_mapXY : assembleText "MAP_XY 5, 3".toList = some [.wr 32 0 389, .wr 32 4 0x01000024] := by decide
theorem test_assemble_register : assembleText "WR CONFIG, 1".toList = some [.wr 32 0x0C 1] := by decide
theorem test_assemble_attachRi :
    assembleText "ATTACH_RI 1, 1, 01 02 03 04".toList = some [.attachRi 1 1 [1, 2, 3, 4]] := by decide
theorem test_assemble_refuses_wide : assembleText "MAP_SLOT 0x100000000".toList = none := by decide

/-! ## Witnesses: the hypotheses of each statement can be met -/

theorem emblemState_oneColor : distinctColors emblemState.ri ≤ 256 := by
  have h : rasterColors emblemState.ri = List.replicate 16384 ⟨0, 0, 0, 0⟩ := by
    rw [List.eq_replicate_iff]
    refine ⟨by rw [rasterColors, List.length_map, length_allPixels], ?_⟩
    intro c hc
    obtain ⟨i, _, rfl⟩ := List.mem_map.1 hc
    rfl
  rw [distinctColors, h]
  have : (List.replicate 16384 (⟨0, 0, 0, 0⟩ : Color)).toFinset = {⟨0, 0, 0, 0⟩} :=
    List.toFinset_replicate_of_ne_zero (by omega)
  rw [this, Finset.card_singleton]
  omega

theorem saveState_extractReady : ExtractReady saveState := ⟨rfl, fun h => absurd h (by decide)⟩

theorem emblemState_injectReady : InjectReady emblemState :=
  ⟨⟨rfl, rfl⟩, rfl, fun h => absurd h (by decide), emblemState_oneColor⟩

theorem strictState_magicFails : ¬ MagicPasses strictState := fun h => absurd (h rfl 0) (by decide)

theorem pixelColor_raster257 (i : Fin 257) : pixelColor raster257 ⟨i.val, by omega⟩ = color257 i := by
  have hi := i.isLt
  have hlen : ((List.finRange 257).flatMap fun i => colorBytes (color257 i)).length = 1028 := by
    rw [length_flatMap_colorBytes, List.length_finRange]
  have at_k : ∀ k, k < 4 → raster257.read (4 * i.val + k) = (colorBytes (color257 i)).getD k 0 := fun k hk => by
    have := getD_flatMap_colorBytes color257 (List.finRange 257) i.val k (by simp) hk
    rw [raster257, Memory.read_ofBytes, hlen, if_pos (by omega), this]
    simp
  have h0 := at_k 0 (by omega)
  have h1 := at_k 1 (by omega)
  have h2 := at_k 2 (by omega)
  have h3 := at_k 3 (by omega)
  simp only [Nat.add_zero] at h0
  simp only [pixelColor, h0, h1, h2, h3]
  rfl

theorem color257_injective : Function.Injective color257 := by
  intro i j h
  have hi := i.isLt
  have hj := j.isLt
  simp only [color257, Color.mk.injEq] at h
  have h1 := congrArg BitVec.toNat h.1
  have h2 := congrArg BitVec.toNat h.2.1
  simp only [BitVec.toNat_ofNat] at h1 h2
  exact Fin.ext (by omega)

theorem raster257_tooManyColors : 256 < distinctColors raster257 := by
  have hsub : Finset.univ.image color257 ⊆ (rasterColors raster257).toFinset := by
    intro c hc
    obtain ⟨i, _, rfl⟩ := Finset.mem_image.1 hc
    rw [List.mem_toFinset, rasterColors, List.mem_map]
    exact ⟨_, mem_allPixels _, pixelColor_raster257 i⟩
  have hcard := Finset.card_le_card hsub
  rw [Finset.card_image_of_injective _ color257_injective, Finset.card_univ, Fintype.card_fin] at hcard
  exact hcard

theorem blackRaster_isBlack (i : PixelIx) : pixelColor blackRaster i = ⟨0, 0, 0, 255⟩ := by
  rw [blackRaster, pixelColor_extracted, extractPixel]
  have h : blackSave.read (indexOffset tX i) = 0 := by
    have hi := (tX.pixel i).isLt
    have : ¬ 16423 = 36 + (tX.pixel i).val := by omega
    simp [blackSave, Memory.read, readCells, indexOffset, physicalOffset, this, Config.blankByte]
  rw [h]
  decide

theorem read_ncSave_index (i : PixelIx) : ncSave.read (36 + i.val) = 5 := by
  have at_key : ∀ l : List Nat, i.val ∈ l → readCells (l.map fun k => (36 + k, (5 : Byte))) (36 + i.val) = 5 := by
    intro l hl
    induction l with
    | nil => simp at hl
    | cons k l ih =>
      rw [List.map_cons, readCells]
      split
      · rfl
      · exact ih ((List.mem_cons.1 hl).resolve_left fun e => by omega)
  rw [ncSave, Memory.read, readCells_append, if_pos (by simp)]
  exact at_key _ (List.mem_range.2 i.isLt)

/-- A canonical buffer: all index bytes 0 select slot 0, and the one color is first seen in place 0. -/
theorem test_witness_canonicalBuffer : ExtractReady saveState ∧ Canonical tX saveState.sb := by
  refine ⟨saveState_extractReady, fun i => ?_⟩
  have hcolor : ∀ j, pixelColor (.ofBytes (extractBytes tX saveState.sb)) j = ⟨0, 0, 0, 0⟩ := fun j => by
    rw [pixelColor_extracted, extractPixel, palRead_eq]; rfl
  have hzero := palettePos_zero (.ofBytes (extractBytes tX saveState.sb))
  rw [palettePos, hcolor] at hzero
  rw [palettePos, hcolor, hzero]
  rfl

/-- Vector X-NC: under T-ID every pixel uses slot 5, but its color is first seen in place 0. -/
theorem test_witness_nonCanonicalBuffer :
    ExtractReady { saveState with sb := ncSave } ∧ ¬ Canonical tId ncSave := by
  refine ⟨⟨rfl, fun h => absurd h (by decide)⟩, fun h => ?_⟩
  have h0 := h 0
  have hread : ncSave.read (indexOffset tId 0) = 5 := read_ncSave_index 0
  rw [palettePos_zero, usedSlot, hread] at h0
  exact absurd h0 (by decide)

theorem test_witness_DecodeReadsBackEveryEncodedCommand : (Instr.packColor 255 0 255 0).wellFormed = true := by decide
theorem test_witness_EncodeReadsBackEveryLegalWord :
    decode 0x02FFFFFFFFFFFFFF = .ok (.unmapPixel 0xFFFFFFFF 0xFFFFFF) := by decide
theorem test_witness_DecodingFollowsMatchAndMask :
    (⟨"INJECT", 0x1100000000000000, 0xFFFFFFFFFFFFFFFF⟩ : OpcodeRow) ∈ opcodeRows ∧
    (⟨"INJECT", 0x1100000000000000, 0xFFFFFFFFFFFFFFFF⟩ : OpcodeRow).selects 0x1100000000000000 = true := by decide
theorem test_witness_MapPixel : (16383#32).toNat < 16384 ∧ 16384 ≤ (16384#32).toNat := by decide
theorem test_witness_UnmapPixel :
    ((36#24).toNat ≤ (16419#32).toNat ∧ (16419#32).toNat - (36#24).toNat < 16384) ∧
    ((35#32).toNat < (36#24).toNat) ∧ ((36#24).toNat + 16384 ≤ (16420#32).toNat) := by decide
theorem test_witness_NonzeroOpbIsIllegal :
    [3, 4, 5, 6, 16, 17].map (fun op : BitVec 8 => decode (op ++ 0x800000#24 ++ 0#32))
      = [3, 4, 5, 6, 16, 17].map (fun op => .error (.nonzeroField op)) := by decide
theorem test_witness_MapSlot : (255#32).toNat < 256 ∧ 256 ≤ (256#32).toNat := by decide
theorem test_witness_Extract :
    ¬ ValidLength State.reset ∧ (ValidLength strictState ∧ ¬ MagicPasses strictState) ∧ ExtractReady saveState :=
  ⟨by unfold ValidLength; decide, ⟨rfl, strictState_magicFails⟩, saveState_extractReady⟩
theorem test_witness_ExtractDependsOnlyOnIndexAndUsedEntries :
    exec .extract saveState = .next (extracted Config.perms saveState) ∧
    (extracted Config.perms saveState).status.code = 0 :=
  ⟨extractWith_ok Config.perms saveState saveState_extractReady.1 saveState_extractReady.2, by simp [extracted]⟩
theorem test_witness_Inject : InjectReady emblemState := emblemState_injectReady
theorem test_witness_InjectFails :
    ¬ EmblemRaster State.reset ∧ (EmblemRaster { State.reset with riDim := ⟨128, 128⟩ } ∧
      ¬ ValidLength { State.reset with riDim := ⟨128, 128⟩ }) ∧
    (EmblemRaster { emblemState with config := ⟨true⟩ } ∧ ValidLength { emblemState with config := ⟨true⟩ } ∧
      ¬ MagicPasses { emblemState with config := ⟨true⟩ }) ∧
    (EmblemRaster { emblemState with ri := raster257 } ∧ ValidLength { emblemState with ri := raster257 } ∧
      MagicPasses { emblemState with ri := raster257 } ∧ 256 < distinctColors raster257) :=
  ⟨fun h => absurd h.1 (by decide), ⟨⟨rfl, rfl⟩, by unfold ValidLength; decide⟩,
    ⟨⟨rfl, rfl⟩, rfl, fun h => absurd (h rfl 0) (by decide)⟩,
    ⟨⟨rfl, rfl⟩, rfl, fun h => absurd h (by decide), raster257_tooManyColors⟩⟩
theorem test_witness_UnusedPaletteEntriesAreUnobservable :
    InjectReady emblemState ∧ ∀ a, a < 16420 + 4 * distinctColors emblemState.ri →
      (injected tX emblemState).sb.read a = (injected tX emblemState).sb.read a :=
  ⟨emblemState_injectReady, fun _ _ => rfl⟩
theorem test_witness_AllBlackRasterScenario :
    EmblemRaster { emblemState with ri := blackRaster } ∧ ValidLength { emblemState with ri := blackRaster } ∧
    MagicPasses { emblemState with ri := blackRaster } ∧
    ∀ i, pixelColor ({ emblemState with ri := blackRaster } : State).ri i = ⟨0, 0, 0, 255⟩ :=
  ⟨⟨rfl, rfl⟩, rfl, fun h => absurd h (by decide), blackRaster_isBlack⟩
theorem test_witness_SlotZeroFixed : tX.SlotZeroFixed := by unfold Config.Perms.SlotZeroFixed; decide
theorem test_witness_ErrorsArePrecise :
    exec (.mapSlot 256) .reset = .next (State.reset.raise scalarDests .indexOutOfRange) ∧
    (State.reset.raise scalarDests .indexOutOfRange).status.code ≠ 0 :=
  ⟨mapSlotWith_error Config.perms 256 .reset (by decide), by decide⟩
theorem test_witness_ExecAnswersNext :
    exec (.packColor 1 2 3 4) .reset = .next (State.reset.setRes 0x04030201).succeed ∧
    (State.reset.setRes 0x04030201).succeed.status.code = 0 := ⟨rfl, rfl⟩
theorem test_witness_ResultRegisterRead :
    (running [.rd 32 ResultReg.resA.hostReg.offset]).result .resA = none ∧
    ({ running [.rd 32 0x20] with resA := some 9 } : State).result .resA = some 9 := by decide
theorem test_witness_OnlyResetClearsSticky :
    step { running [.reset] with status := ⟨3, true⟩ }
      = .next ({ running [.reset] with status := ⟨3, true⟩ }.takeAction []).resetBlock ∧
    ({ running [.reset] with status := ⟨3, true⟩ }.takeAction []).resetBlock.status.sticky = false := ⟨rfl, rfl⟩
theorem test_witness_ResultsDependOnlyOnTheInputs : SameInputs .reset { State.reset with cmdA := 1, res := some 2 } :=
  ⟨rfl, rfl, rfl, rfl, rfl⟩
theorem test_witness_StepRunsTheLaunchedCommand :
    (running [.wr 32 0x04 0x01000024]).pending = [.wr 32 0x04 0x01000024] ∧
    decode (0x01000024#32 ++ (running []).cmdA) = .ok (.mapPixel 0 36) ∧ (Instr.mapPixel 0 36).wellFormed = true := by
  decide
theorem test_witness_IllegalWordOnlyRecordsIllegalCommand :
    decode (0x03000001#32 ++ (running []).cmdA) = .error (.nonzeroField 3) := by decide
theorem test_witness_CommandLineRunsInTwoWrites :
    (running (commandActions (.mapPixel 1 36))).pending = commandActions (.mapPixel 1 36) ++ [] := by decide
theorem test_witness_AssemblerNeverTruncatesAnOperand :
    assemble (.mapPixel 0xFFFFFFFF 0xFFFFFF) = some (commandActions (.mapPixel 0xFFFFFFFF 0xFFFFFF)) ∧
    assemble (.packColor 255 255 255 255) = some (commandActions (.packColor 255 255 255 255)) ∧
    assemble (.mapPixel 0x100000000 0) = none := by decide
theorem test_witness_RegisterReadsReturnTheirFields :
    (running [.rd 32 0x28]).pending = [.rd 32 0x28] ∧ ({ State.reset with resB := some 255 } : State).resB = some 255 := by
  decide
theorem test_witness_RegisterWritesFollowTheMap :
    (running [.wr 32 0x0C 0xFFFFFFFF]).pending = [.wr 32 0x0C 0xFFFFFFFF] ∧ (0x2C ≤ 0x2C ∧ 0x2A % 4 ≠ 0) := by decide
theorem test_witness_AttachedBuffersReadBack :
    (running [.attachSb [1, 0, 2], .readSb]).pending = [.attachSb [1, 0, 2], .readSb] ∧ [1, 0, 2].length < 2 ^ 32 ∧
    ([1, 2, 3, 4] : List Byte).length = (1#16).toNat * (1#16).toNat * 4 := by decide

/-- R242: READ_SB after an INJECT answers the bytes the INJECT left. -/
theorem test_witness_ReadAfterInject :
    replyOf (step { injected Config.perms emblemState with pending := [.readSb] })
      = some (.saveBuffer (injected Config.perms emblemState).sbBytes) := rfl
theorem test_witness_RefusedExactlyWhenTheActionHasNoMeaning :
    refusalOf (step (running [.wr 8 0 0])) = some (.registerAccess 8 0) := by decide
theorem test_witness_OnlyReadsOfNoValueFault : faultOf (step (running [.rd 32 0x14])) = some (.noValue .resR) := by decide
theorem test_witness_ProgramStepsByTheHostIndex :
    State.reset.pending = [] ∧ step (running [.stopIfError, .readSb]) = .next ((running []).takeAction [.readSb]) :=
  ⟨rfl, rfl⟩
theorem test_witness_ResetAction : (running [.reset, .readRi]).pending = .reset :: [.readRi] := rfl
theorem test_witness_BuffersInv :
    BuffersInv { saveState with sb := blackSave, pending := [.attachSb [0, 1]] } ∧
    ∃ t, step { saveState with sb := blackSave, pending := [.attachSb [0, 1]] } = .next t :=
  ⟨by unfold BuffersInv; decide, _, rfl⟩
theorem test_witness_StatusInv :
    StatusInv { running [.wr 32 0x04 0] with status := ⟨3, true⟩ } ∧
    ∃ t, step { running [.wr 32 0x04 0] with status := ⟨3, true⟩ } = .next t :=
  ⟨by unfold StatusInv; decide, _, rfl⟩
theorem test_witness_HeaderAndTailAreNeverWritten :
    (∃ t, exec .inject emblemState = .next t) ∧ 35 < 36 ∧ 17444 ≤ 17444 :=
  ⟨⟨_, injectWith_ok Config.perms emblemState emblemState_injectReady⟩, by decide⟩
theorem test_witness_AssemblerRefusesEachWideOperand :
    assemble (.unmapPixel 0xFFFFFFFF 0xFFFFFF) = some (commandActions (.unmapPixel 0xFFFFFFFF 0xFFFFFF)) ∧
    assemble (.unpackColor 0xFFFFFFFF) = some (commandActions (.unpackColor 0xFFFFFFFF)) ∧
    assemble (.mapSlot 0xFFFFFFFF) = some (commandActions (.mapSlot 0xFFFFFFFF)) ∧
    assemble (.unmapSlot 0xFFFFFFFF) = some (commandActions (.unmapSlot 0xFFFFFFFF)) ∧
    assemble (.mapPixel 0 0x1000000) = none ∧ assemble (.packColor 0 0 0 256) = none ∧
    assemble (.unpackColor 0x100000000) = none := by decide

end Sys2Proof.Tests
end

section
/-! PROOFS of the statements about the scope (00_scope.md): the byte order of R9 (O10), what a command's results depend on
(O36), and the one fault a step can end in (O46). -/

namespace Sys2Proof.Machine

/-! ## Little-endian words (R9) -/

/-- A word of four bytes in rising order is the packed color with these channels (R9, R58, R120). -/
theorem le32_eq_pack (b0 b1 b2 b3 : Byte) : le32 b0 b1 b2 b3 = pack ⟨b0, b1, b2, b3⟩ := rfl

theorem leBytes32_le32 (b0 b1 b2 b3 : Byte) : leBytes32 (le32 b0 b1 b2 b3) = #v[b0, b1, b2, b3] := by
  rw [le32_eq_pack, leBytes32_pack]

/-- The four bytes of a word, put together again, are its base-256 digits. -/
theorem le32_leBytes32 (w : Word) :
    le32 (leBytes32 w)[0] (leBytes32 w)[1] (leBytes32 w)[2] (leBytes32 w)[3] = w := by
  have hw := w.isLt
  apply BitVec.eq_of_toNat_eq
  rw [toNat_le32]
  change (w.extractLsb' 0 8).toNat + 256 * (w.extractLsb' 8 8).toNat + 65536 * (w.extractLsb' 16 8).toNat
    + 16777216 * (w.extractLsb' 24 8).toNat = w.toNat
  simp only [toNat_byteAt]
  omega

/-- Settles O10: the value is the sum of R9, and each helper undoes the other. -/
theorem littleEndianHelpersAreInverse : Obligations.LittleEndianHelpersAreInverse :=
  ⟨fun b0 b1 b2 b3 => ⟨toNat_le32 b0 b1 b2 b3, leBytes32_le32 b0 b1 b2 b3⟩, le32_leBytes32⟩

/-! ## What EXTRACT and INJECT leave in the fields a later command's result may depend on (R156, R181) -/

@[simp] theorem extracted_status (P : Config.Perms) (s : State) : (extracted P s).status = s.status.record .ok := rfl
@[simp] theorem extracted_config (P : Config.Perms) (s : State) : (extracted P s).config = s.config := rfl
@[simp] theorem extracted_res (P : Config.Perms) (s : State) : (extracted P s).res = some 65536 := rfl
@[simp] theorem extracted_sbLen (P : Config.Perms) (s : State) : (extracted P s).sbLen = s.sbLen := rfl
@[simp] theorem extracted_sb (P : Config.Perms) (s : State) : (extracted P s).sb = s.sb := rfl
@[simp] theorem extracted_riDim (P : Config.Perms) (s : State) : (extracted P s).riDim = emblemDim := rfl
@[simp] theorem extracted_ri (P : Config.Perms) (s : State) : (extracted P s).ri = .ofBytes (extractBytes P s.sb) := rfl

@[simp] theorem injected_status (P : Config.Perms) (s : State) : (injected P s).status = s.status.record .ok := rfl
@[simp] theorem injected_config (P : Config.Perms) (s : State) : (injected P s).config = s.config := rfl
@[simp] theorem injected_res (P : Config.Perms) (s : State) :
    (injected P s).res = some (BitVec.ofNat 32 (distinctColors s.ri)) := rfl
@[simp] theorem injected_sbLen (P : Config.Perms) (s : State) : (injected P s).sbLen = s.sbLen := rfl
@[simp] theorem injected_sb (P : Config.Perms) (s : State) : (injected P s).sb = injectedSb P s := rfl
@[simp] theorem injected_riDim (P : Config.Perms) (s : State) : (injected P s).riDim = s.riDim := rfl
@[simp] theorem injected_ri (P : Config.Perms) (s : State) : (injected P s).ri = s.ri := rfl

/-! ## What a command's checks depend on (R2, R187) -/

section SameInputs

variable {s t : State}

theorem SameInputs.validLength_iff (h : SameInputs s t) : ValidLength s ↔ ValidLength t := by
  obtain ⟨-, hlen, -, -, -⟩ := h
  simp [ValidLength, hlen]

theorem SameInputs.magicPasses_iff (h : SameInputs s t) : MagicPasses s ↔ MagicPasses t := by
  obtain ⟨hconfig, -, hsb, -, -⟩ := h
  simp [MagicPasses, hconfig, hsb]

theorem SameInputs.emblemRaster_iff (h : SameInputs s t) : EmblemRaster s ↔ EmblemRaster t := by
  obtain ⟨-, -, -, hdim, -⟩ := h
  simp [EmblemRaster, hdim]

/-! ## What a command's end depends on -/

/-- Two outcomes are next states with the same CODE, the same values in the destinations `dests`, and the same CONFIG, save
buffer and raster: what R2 and R187 say of one command run in two states. -/
def SameAnswer (dests : List ResultReg) (o p : Host.Outcome State Fault Refusal) : Prop :=
  ∃ s' t', o = .next s' ∧ p = .next t' ∧ s'.status.code = t'.status.code ∧
    (∀ r ∈ dests, s'.result r = t'.result r) ∧ SameInputs s' t'

/-- A raised error leaves no value in the destination and the inputs as they were (R210). -/
theorem SameInputs.raise_scalar (h : SameInputs s t) (e : StatusCode) :
    SameAnswer scalarDests (.next (s.raise scalarDests e)) (.next (t.raise scalarDests e)) :=
  ⟨_, _, rfl, rfl, rfl, by simp [scalarDests, State.result, State.raise, State.clearResults, State.clearResult], h⟩

theorem SameInputs.setRes (h : SameInputs s t) (v : Word) :
    SameAnswer scalarDests (.next (s.setRes v).succeed) (.next (t.setRes v).succeed) :=
  ⟨_, _, rfl, rfl, rfl, by simp [scalarDests, State.result], h⟩

theorem SameInputs.setChannels (h : SameInputs s t) (c : Color) :
    SameAnswer channelDests (.next (s.setChannels c).succeed) (.next (t.setChannels c).succeed) :=
  ⟨_, _, rfl, rfl, rfl, by simp [channelDests, State.result], h⟩

/-- A successful EXTRACT gives the same raster, since it computes it from the save buffer alone (R155). -/
theorem SameInputs.extracted (h : SameInputs s t) (P : Config.Perms) :
    SameAnswer scalarDests (.next (extracted P s)) (.next (extracted P t)) := by
  obtain ⟨hconfig, hlen, hsb, -, -⟩ := h
  exact ⟨_, _, rfl, rfl, by simp, by simp [scalarDests, State.result], by simp [SameInputs, hconfig, hlen, hsb]⟩

/-- A successful INJECT gives the same save buffer and color count, since it stages the new blocks from the old ones and
the raster alone (R176 to R179). -/
theorem SameInputs.injected (h : SameInputs s t) (P : Config.Perms) :
    SameAnswer scalarDests (.next (injected P s)) (.next (injected P t)) := by
  obtain ⟨hconfig, hlen, hsb, hdim, hri⟩ := h
  have hnew : injectedSb P s = injectedSb P t := by simp only [injectedSb, hsb, hri]
  exact ⟨_, _, rfl, rfl, by simp, by simp [scalarDests, State.result, hri],
    by simp [SameInputs, hconfig, hlen, hnew, hdim, hri]⟩

/-! ## The two commands that reach the buffers -/

/-- EXTRACT takes the same of its three ends in both states (R157). -/
theorem SameInputs.extractWith (h : SameInputs s t) (P : Config.Perms) :
    SameAnswer scalarDests (extractWith P s) (extractWith P t) := by
  by_cases hlen : ValidLength s
  · have hlen' := h.validLength_iff.1 hlen
    by_cases hm : MagicPasses s
    · rw [extractWith_ok P s hlen hm, extractWith_ok P t hlen' (h.magicPasses_iff.1 hm)]
      exact h.extracted P
    · rw [extractWith_headerMismatch P s hlen hm,
        extractWith_headerMismatch P t hlen' (mt h.magicPasses_iff.2 hm)]
      exact h.raise_scalar _
  · rw [extractWith_formatError P s hlen, extractWith_formatError P t (mt h.validLength_iff.2 hlen)]
    exact h.raise_scalar _

/-- INJECT takes the same of its five ends in both states (R170). -/
theorem SameInputs.injectWith (h : SameInputs s t) (P : Config.Perms) :
    SameAnswer scalarDests (injectWith P s) (injectWith P t) := by
  have ⟨_, _, _, _, hri⟩ := h
  by_cases hs : EmblemRaster s
  · have hs' := h.emblemRaster_iff.1 hs
    by_cases hlen : ValidLength s
    · have hlen' := h.validLength_iff.1 hlen
      by_cases hm : MagicPasses s
      · have hm' := h.magicPasses_iff.1 hm
        by_cases hc : distinctColors s.ri ≤ 256
        · rw [injectWith_ok P s ⟨hs, hlen, hm, hc⟩, injectWith_ok P t ⟨hs', hlen', hm', hri ▸ hc⟩]
          exact h.injected P
        · have hc : 256 < distinctColors s.ri := Nat.lt_of_not_le hc
          rw [injectWith_capacityExceeded P s hs hlen hm hc,
            injectWith_capacityExceeded P t hs' hlen' hm' (hri ▸ hc)]
          exact h.raise_scalar _
      · rw [injectWith_headerMismatch P s hs hlen hm,
          injectWith_headerMismatch P t hs' hlen' (mt h.magicPasses_iff.2 hm)]
        exact h.raise_scalar _
    · rw [injectWith_formatError P s hs hlen, injectWith_formatError P t hs' (mt h.validLength_iff.2 hlen)]
      exact h.raise_scalar _
  · rw [injectWith_sizeError P s hs, injectWith_sizeError P t (mt h.emblemRaster_iff.2 hs)]
    exact h.raise_scalar _

/-! ## The mappings: their operand checks and results depend on the operands alone -/

theorem pixelOperand_ne_fault (i : Word) (f : Fault) : pixelOperand i ≠ .error (.fault f) := by
  by_cases h : i.toNat < 16384
  · simp [pixelOperand_ok i h]
  · simp [pixelOperand_error i h]

theorem offsetOperand_ne_fault (o : Word) (b : BitVec 24) (f : Fault) : offsetOperand o b ≠ .error (.fault f) := by
  by_cases h : b.toNat ≤ o.toNat ∧ o.toNat - b.toNat < 16384
  · simp [offsetOperand_ok o b h]
  · simp [offsetOperand_error o b h]

theorem slotOperand_ne_fault (w : Word) (f : Fault) : slotOperand w ≠ .error (.fault f) := by
  by_cases h : w.toNat < 256
  · simp [slotOperand_ok w h]
  · simp [slotOperand_error w h]

/-- A command that checks an operand and then writes one scalar computed from it answers the same in both states. -/
theorem SameInputs.scalarOfOperand {α : Type} (h : SameInputs s t) (operand : Except Stop α)
    (hfault : ∀ f, operand ≠ .error (.fault f)) (value : α → Word) :
    SameAnswer scalarDests
      (complete scalarDests s do let x ← operand; return s.setRes (value x))
      (complete scalarDests t do let x ← operand; return t.setRes (value x)) := by
  match operand with
  | .ok x => exact h.setRes (value x)
  | .error (.raised e) => exact h.raise_scalar e
  | .error (.fault f) => exact absurd rfl (hfault f)

/-- Every command answers the same in two states with the same inputs (R2, R187). -/
theorem SameInputs.exec (h : SameInputs s t) (i : Instr) : SameAnswer (destsOf i) (exec i s) (exec i t) := by
  cases i with
  | mapPixel i b => exact h.scalarOfOperand _ (pixelOperand_ne_fault i) _
  | unmapPixel o b => exact h.scalarOfOperand _ (offsetOperand_ne_fault o b) _
  | packColor r g b a => exact h.setRes (pack ⟨r, g, b, a⟩)
  | unpackColor w => exact h.setChannels (unpack w)
  | mapSlot w => exact h.scalarOfOperand _ (slotOperand_ne_fault w) _
  | unmapSlot w => exact h.scalarOfOperand _ (slotOperand_ne_fault w) _
  | extract => exact h.extractWith Config.perms
  | inject => exact h.injectWith Config.perms

end SameInputs

/-- Settles O36, command by command: each takes the same end in both states. -/
theorem resultsDependOnlyOnTheInputs : Obligations.ResultsDependOnlyOnTheInputs :=
  fun i _ _ h => h.exec i

/-! ## No command and no launch faults (R11) -/

/-- Every command answers a next state in every state: no access of a command leaves a buffer (R11, S12). -/
theorem exec_answers (i : Instr) (s : State) : ∃ t, exec i s = .next t := by
  rcases exec_cases i s with ⟨e, -, -, -, -, h⟩ | ⟨v, -, -, -, h⟩ | ⟨w, -, h⟩ | ⟨-, -, h⟩ | ⟨-, -, h⟩ <;> exact ⟨_, h⟩

theorem launch_answers (s : State) : ∃ t, launch s = .next t := by
  rcases launch_cases s with ⟨i, -, h⟩ | ⟨e, -, h⟩
  · rw [h]; exact exec_answers i s
  · exact ⟨_, h⟩

theorem writeReg_answers (s : State) (r : HostReg) (v : Word) : ∃ t, s.writeReg r v = .next t := by
  cases r
  case cmdHi => exact launch_answers _
  all_goals exact ⟨_, rfl⟩

/-! ## The fault of a host read (R27) -/

theorem resultValue_error (r : ResultReg) (v : Option Word) (f : Fault) (h : resultValue r v = .error f) :
    f = .noValue r ∧ v = none := by
  cases v with
  | none => exact ⟨(Except.error.inj h).symm, rfl⟩
  | some v => cases h

/-- A register read fails only at a result register without a value, and the fault names that register (R27). -/
theorem readReg_error (s : State) (r : HostReg) (f : Fault) (h : s.readReg r = .error f) :
    ∃ q : ResultReg, r = q.hostReg ∧ f = .noValue q ∧ s.result q = none := by
  cases r with
  | res => exact ⟨.res, rfl, resultValue_error _ _ f h⟩
  | resR => exact ⟨.resR, rfl, resultValue_error _ _ f h⟩
  | resG => exact ⟨.resG, rfl, resultValue_error _ _ f h⟩
  | resB => exact ⟨.resB, rfl, resultValue_error _ _ f h⟩
  | resA => exact ⟨.resA, rfl, resultValue_error _ _ f h⟩
  | cmdA => cases h
  | cmdHi => cases h
  | status => cases h
  | config => cases h
  | sbLen => cases h
  | riDim => cases h

/-- A host action faults only when it is a 32-bit read of a result register that holds no value (R27, R240). -/
theorem perform_fault (a : HostAction) (s : State) (f : Fault) (h : perform a s = .fault f) :
    ∃ q : ResultReg, a = .rd 32 q.hostReg.offset ∧ f = .noValue q ∧ s.result q = none := by
  cases a with
  | rd bits offset =>
    simp only [perform, readAction] at h
    cases hr : accessedReg bits offset with
    | none => simp [hr] at h
    | some r =>
      obtain ⟨rfl, rfl⟩ := (accessedReg_eq_some bits offset r).1 hr
      cases hv : s.readReg r with
      | ok v => simp [hr, hv] at h
      | error g =>
        obtain rfl : g = f := by simpa [hr, hv] using h
        obtain ⟨q, rfl, hg, hnone⟩ := readReg_error s r g hv
        exact ⟨q, rfl, hg, hnone⟩
  | wr bits offset v =>
    simp only [perform, writeAction] at h
    cases hr : accessedReg bits offset with
    | none => simp [hr] at h
    | some r =>
      obtain ⟨t, ht⟩ := writeReg_answers s r v
      simp [hr, ht] at h
  | attachSb bytes => simp only [perform, attachSbAction] at h; split at h <;> cases h
  | attachRi w hh bytes => simp only [perform, attachRiAction] at h; split at h <;> cases h
  | reset => cases h
  | readSb => cases h
  | readRi => cases h
  | stopIfError => cases h
  | otherBufferAccess => cases h

/-- The host index moving past an action leaves the result registers as they are (R245). -/
@[simp] theorem State.takeAction_result (s : State) (rest : List HostAction) (r : ResultReg) :
    (s.takeAction rest).result r = s.result r := by
  cases r <;> rfl

/-- Settles O46: a step performs the host's next action, and only a read of no value faults. -/
theorem onlyReadsOfNoValueFault : Obligations.OnlyReadsOfNoValueFault := by
  intro s f h
  unfold step hostStep at h
  cases hp : s.pending with
  | nil => simp [hp] at h
  | cons a rest =>
    simp only [hp] at h
    obtain ⟨q, rfl, hf, hnone⟩ := perform_fault a _ f h
    exact ⟨q, rest, hf, by simpa using hnone, rfl⟩

end Sys2Proof.Machine
end

section
/-! PROOFS of the statements about the state (10_state.md): what every step keeps of the buffers (O51) and of STATUS (O53,
O32, O33), the result registers (O31), what no command writes (O34), the permutations a command takes (O28), and the host's
register accesses and launches (O43, O45, O42, O37, O48). -/

namespace Sys2Proof.Machine

/-! ## What a command and a launch leave, once -/

/-- What a command leaves, since it always answers a next state: `exec_cases` read off the state it ends in. -/
theorem exec_next (i : Instr) (s t : State) (h : exec i s = .next t) :
    (∃ e, e ≠ .ok ∧ e ≠ .ioError ∧ destsOf i = [.res] ∧ t = s.raise scalarDests e) ∨
    (∃ v, destsOf i = [.res] ∧ t = (s.setRes v).succeed) ∨
    (∃ w, i = .unpackColor w ∧ t = (s.setChannels (unpack w)).succeed) ∨
    (i = .extract ∧ ExtractReady s ∧ t = extracted Config.perms s) ∨
    (i = .inject ∧ InjectReady s ∧ t = injected Config.perms s) := by
  rcases exec_cases i s with ⟨e, hok, hio, hd, -, he⟩ | ⟨v, hd, -, -, he⟩ | ⟨w, hi, he⟩ | ⟨hi, hr, he⟩ | ⟨hi, hr, he⟩ <;>
    obtain rfl := Host.Outcome.next.inj (h.symm.trans he)
  · exact .inl ⟨e, hok, hio, hd, rfl⟩
  · exact .inr (.inl ⟨v, hd, rfl⟩)
  · exact .inr (.inr (.inl ⟨w, hi, rfl⟩))
  · exact .inr (.inr (.inr (.inl ⟨hi, hr, rfl⟩)))
  · exact .inr (.inr (.inr (.inr ⟨hi, hr, rfl⟩)))

/-- A launch leaves what some command leaves, or records IllegalCommand (R85, R86). -/
theorem launch_next (s t : State) (h : launch s = .next t) : (∃ i, exec i s = .next t) ∨ t = s.illegal := by
  rcases launch_cases s with ⟨i, -, hi⟩ | ⟨e, -, he⟩
  · exact .inl ⟨i, hi.symm.trans h⟩
  · exact .inr (Host.Outcome.next.inj (h.symm.trans he))

/-! ## The buffers' lists of cells (log 6; R34, R35) -/

/-- Attached bytes are a well-formed list inside the length register the attach sets (R34, R240). -/
theorem within_ofBytes_sbLen (bytes : List Byte) (h : bytes.length < 2 ^ 32) :
    (Memory.ofBytes bytes).within (BitVec.ofNat 32 bytes.length).toNat = true := by
  rw [BitVec.toNat_ofNat, Nat.mod_eq_of_lt h]
  exact Memory.within_ofBytes bytes

/-- The dimensions an attach of `w` by `h` pixels sets give back `w*h*4` bytes (R35, R241). -/
theorem bytes_ofNat (w h : Nat) (hw : w < 65536) (hh : h < 65536) :
    RasterDim.bytes ⟨BitVec.ofNat 16 w, BitVec.ofNat 16 h⟩ = w * h * 4 := by
  simp only [RasterDim.bytes, BitVec.toNat_ofNat, Nat.mod_eq_of_lt hw, Nat.mod_eq_of_lt hh]

theorem bytes_emblemDim : emblemDim.bytes = 65536 := by decide

/-- EXTRACT's raster is 65536 bytes, as RI_DIM then says (R156). -/
theorem BuffersInv.extracted {s : State} (h : BuffersInv s) (P : Config.Perms) : BuffersInv (extracted P s) := by
  obtain ⟨hsb, hsbIn, -, -⟩ := h
  have hin := Memory.within_ofBytes (extractBytes P s.sb)
  rw [length_extractBytes, ← bytes_emblemDim] at hin
  exact ⟨hsb, hsbIn, Memory.wf_ofBytes _, hin⟩

/-- INJECT writes the save buffer inside `[36, 17444)`, and its length is 17472 (R150, R179). -/
theorem BuffersInv.injected {s : State} (h : BuffersInv s) (P : Config.Perms) (hlen : ValidLength s) :
    BuffersInv (injected P s) := by
  obtain ⟨hsb, hsbIn, hri, hriIn⟩ := h
  have hrange : 36 + (stage P s.sb (paletteOf s.ri)).toList.length ≤ s.sbLen.toNat := by
    rw [Vector.length_toList, hlen]; decide
  exact ⟨Memory.wf_writeRange _ _ _ hsb, Memory.within_writeRange _ _ _ _ hsbIn hrange, hri, hriIn⟩

theorem BuffersInv.exec {s t : State} (h : BuffersInv s) {i : Instr} (he : exec i s = .next t) : BuffersInv t := by
  rcases exec_next i s t he with ⟨e, -, -, -, rfl⟩ | ⟨v, -, rfl⟩ | ⟨w, -, rfl⟩ | ⟨-, -, rfl⟩ | ⟨-, hready, rfl⟩
  · exact h
  · exact h
  · exact h
  · exact h.extracted Config.perms
  · obtain ⟨-, hlen, -, -⟩ := hready
    exact h.injected Config.perms hlen

theorem BuffersInv.launch {s t : State} (h : BuffersInv s) (hl : launch s = .next t) : BuffersInv t := by
  rcases launch_next s t hl with ⟨i, he⟩ | rfl
  · exact h.exec he
  · exact h

/-- Settles O51: only EXTRACT, INJECT, an attach and RESET touch a buffer or its length, and each leaves the two in step. -/
theorem stepKeepsTheBufferListsSortedNonzeroAndInside : Obligations.StepKeepsTheBufferListsSortedNonzeroAndInside := by
  intro s t h hstep
  have ⟨hsb, hsbIn, hri, hriIn⟩ := h
  rcases step_cases s t hstep with ⟨-, rfl⟩ | ⟨rest, -, rfl⟩ | ⟨v, rest, -, hl⟩ | ⟨r, v, rest, -, -, -, a, c, rfl⟩ |
    ⟨action, rest, reply, -, -, -, rfl⟩ | ⟨bytes, rest, -, hlen, rfl⟩ | ⟨w, hh, bytes, rest, -, hw, hhh, hlen, rfl⟩ |
    ⟨rest, -, rfl⟩
  · exact h
  · exact ⟨Memory.wf_empty, Memory.within_empty _, Memory.wf_empty, Memory.within_empty _⟩
  · have hstored : BuffersInv { s.takeAction rest with cmdHi := v } := h
    exact hstored.launch hl
  · exact h
  · exact h
  · exact ⟨Memory.wf_ofBytes _, within_ofBytes_sbLen bytes hlen, hri, hriIn⟩
  · have hin := Memory.within_ofBytes bytes
    rw [hlen, ← bytes_ofNat w hh hw hhh] at hin
    exact ⟨hsb, hsbIn, Memory.wf_ofBytes _, hin⟩
  · rcases stopIfError_cases (s.takeAction rest) with ⟨-, ht⟩ | ⟨-, ht⟩ <;> rw [ht] <;> exact h

/-! ## STATUS (R28, R200, R207) -/

/-- A command records one status code in STATUS, never IOError (R28, R207). -/
theorem exec_status (i : Instr) (s t : State) (h : exec i s = .next t) :
    ∃ e, e ≠ .ioError ∧ t.status = s.status.record e := by
  rcases exec_next i s t h with ⟨e, -, hio, -, rfl⟩ | ⟨v, -, rfl⟩ | ⟨w, -, rfl⟩ | ⟨-, -, rfl⟩ | ⟨-, -, rfl⟩
  · exact ⟨e, hio, rfl⟩
  all_goals exact ⟨.ok, by simp, rfl⟩

theorem launch_status (s t : State) (h : launch s = .next t) : ∃ e, e ≠ .ioError ∧ t.status = s.status.record e := by
  rcases launch_next s t h with ⟨i, he⟩ | rfl
  · exact exec_status i s t he
  · exact ⟨.illegalCommand, by simp, rfl⟩

/-- What a step can do to STATUS: leave it, reset it, or record the code of a command. -/
theorem step_status (s t : State) (h : step s = .next t) :
    t.status = s.status ∨ (∃ rest, s.pending = .reset :: rest ∧ t.status = ⟨0, false⟩) ∨
    ∃ e, e ≠ .ioError ∧ t.status = s.status.record e := by
  rcases step_cases s t h with ⟨-, rfl⟩ | ⟨rest, hp, rfl⟩ | ⟨v, rest, -, hl⟩ | ⟨r, v, rest, -, -, -, a, c, rfl⟩ |
    ⟨action, rest, reply, -, -, -, rfl⟩ | ⟨bytes, rest, -, -, rfl⟩ | ⟨w, hh, bytes, rest, -, -, -, -, rfl⟩ | ⟨rest, -, rfl⟩
  · exact .inl rfl
  · exact .inr (.inl ⟨rest, hp, rfl⟩)
  · obtain ⟨e, hio, ht⟩ := launch_status _ t hl
    exact .inr (.inr ⟨e, hio, ht⟩)
  · exact .inl rfl
  · exact .inl rfl
  · exact .inl rfl
  · exact .inl rfl
  · rcases stopIfError_cases (s.takeAction rest) with ⟨-, ht⟩ | ⟨-, ht⟩ <;> rw [ht] <;> exact .inl rfl

theorem num_mem_producedCodes (e : StatusCode) (h : e ≠ .ioError) : e.num ∈ producedCodes := by
  cases e
  case ioError => exact absurd rfl h
  all_goals decide

/-- STATUS after recording `e`: CODE is 0 exactly for a success, which keeps STICKY; an error sets it (R28, R210, R211). -/
theorem Status.record_cases (st : Status) (e : StatusCode) :
    ((st.record e).code = 0 ∧ (st.record e).sticky = st.sticky) ∨
    ((st.record e).code ≠ 0 ∧ (st.record e).sticky = true) := by
  by_cases h : e = .ok
  · subst h; exact .inl (by simp)
  · rw [Status.record_error st e h]; exact .inr ⟨StatusCode.num_ne_zero e h, rfl⟩

/-- Settles O53: STATUS is left, reset or recorded, and a recorded code is one the block can produce. -/
theorem stepKeepsStatusLegal : Obligations.StepKeepsStatusLegal := by
  intro s t h hstep
  unfold StatusInv at h ⊢
  rcases step_status s t hstep with ht | ⟨rest, -, ht⟩ | ⟨e, hio, ht⟩ <;> rw [ht]
  · exact h
  · decide
  · refine ⟨num_mem_producedCodes e hio, fun hcode => ?_⟩
    rcases s.status.record_cases e with ⟨h0, -⟩ | ⟨-, hs⟩
    · exact absurd h0 hcode
    · exact hs

/-- Settles O32: the code a command records decides what becomes of STICKY. -/
theorem stickyRecordsEveryFailure : Obligations.StickyRecordsEveryFailure := by
  intro i s t h
  obtain ⟨e, -, ht⟩ := exec_status i s t h
  rw [ht]
  rcases s.status.record_cases e with ⟨hc, hs⟩ | ⟨hc, hs⟩
  · exact ⟨fun _ => hs, fun hn => absurd hc hn⟩
  · exact ⟨fun h0 => absurd h0 hc, fun _ => hs⟩

/-- Settles O33: a step that leaves STATUS or records a code in it keeps a STICKY of 1. -/
theorem onlyResetClearsSticky : Obligations.OnlyResetClearsSticky := by
  intro s t hstep hset hclear
  rcases step_status s t hstep with ht | ⟨rest, hp, -⟩ | ⟨e, -, ht⟩
  · rw [ht, hset] at hclear; cases hclear
  · exact ⟨rest, hp⟩
  · simp [ht, Status.record, hset] at hclear

/-! ## The result registers (R27, R30, R31) -/

theorem reset_result (r : ResultReg) : State.reset.result r = none := by
  cases r <;> rfl

@[simp] theorem State.raise_scalar_result (s : State) (e : StatusCode) (r : ResultReg) :
    (s.raise scalarDests e).result r = if r = .res then none else s.result r := by
  cases r <;> rfl

@[simp] theorem State.setRes_result (s : State) (v : Word) (r : ResultReg) :
    (s.setRes v).result r = if r = .res then some v else s.result r := by
  cases r <;> rfl

@[simp] theorem State.succeed_result (s : State) (r : ResultReg) : s.succeed.result r = s.result r := by
  cases r <;> rfl

@[simp] theorem extracted_result (P : Config.Perms) (s : State) (r : ResultReg) :
    (extracted P s).result r = if r = .res then some 65536 else s.result r := by
  cases r <;> rfl

@[simp] theorem injected_result (P : Config.Perms) (s : State) (r : ResultReg) :
    (injected P s).result r = if r = .res then some (BitVec.ofNat 32 (distinctColors s.ri)) else s.result r := by
  cases r <;> rfl

theorem State.setChannels_result_isSome (s : State) (c : Color) (r : ResultReg) (h : r ≠ .res) :
    ((s.setChannels c).result r).isSome = true := by
  cases r
  case res => exact absurd rfl h
  all_goals rfl

theorem mem_channelDests (r : ResultReg) : r ∈ channelDests ↔ r ≠ .res := by
  cases r <;> decide

/-- What R27 asks of a result register `r` for the command `i` that went from `s` to `t`. -/
def ResultRuled (i : Instr) (s t : State) (r : ResultReg) : Prop :=
  (r ∈ destsOf i → ((t.result r).isSome = true ↔ t.status.code = 0)) ∧ (r ∉ destsOf i → t.result r = s.result r)

/-- For a command whose destination is RES, R27 speaks of RES and of the four channel registers (R30). -/
theorem ResultRuled.of_scalar {i : Instr} {s t : State} (hd : destsOf i = [.res])
    (hres : (t.result .res).isSome = true ↔ t.status.code = 0) (hkept : ∀ r, r ≠ .res → t.result r = s.result r)
    (r : ResultReg) : ResultRuled i s t r := by
  rw [ResultRuled, hd, List.mem_singleton]
  exact ⟨fun hr => hr ▸ hres, hkept r⟩

/-- A command that names a register leaves a value in it exactly when it succeeds, and touches no other (R27, R210). -/
theorem exec_resultRuled (i : Instr) (s t : State) (r : ResultReg) (h : exec i s = .next t) : ResultRuled i s t r := by
  rcases exec_next i s t h with ⟨e, hok, -, hd, rfl⟩ | ⟨v, hd, rfl⟩ | ⟨w, rfl, rfl⟩ | ⟨rfl, -, rfl⟩ | ⟨rfl, -, rfl⟩
  · have hcode := StatusCode.num_ne_zero e hok
    exact .of_scalar hd (by simpa [Status.record_error s.status e hok] using hcode) (fun q hq => by simp [hq]) r
  · exact .of_scalar hd (by simp) (fun q hq => by simp [hq]) r
  · have hdests : r ∈ destsOf (.unpackColor w) ↔ r ≠ .res := mem_channelDests r
    rw [ResultRuled, hdests]
    refine ⟨fun hr => by simp [State.setChannels_result_isSome s _ r hr], fun hr => ?_⟩
    obtain rfl := not_not.1 hr
    rfl
  · exact .of_scalar rfl (by simp) (fun q hq => by simp [hq]) r
  · exact .of_scalar rfl (by simp) (fun q hq => by simp [hq]) r

/-! ## The host's register accesses (R23, R24) -/

theorem step_cons (s : State) (a : HostAction) (rest : List HostAction) (hp : s.pending = a :: rest) :
    step s = perform a (s.takeAction rest) := by
  simp only [step, hostStep, hp]

theorem accessedReg_offset (r : HostReg) : accessedReg 32 r.offset = some r :=
  (accessedReg_eq_some 32 r.offset r).2 ⟨rfl, rfl⟩

@[simp] theorem State.takeAction_readReg (s : State) (rest : List HostAction) (r : HostReg) :
    (s.takeAction rest).readReg r = s.readReg r := by
  cases r <;> rfl

/-- A 32-bit write at a register's offset writes that register (R24). -/
theorem step_wr (s : State) (r : HostReg) (v : Word) (rest : List HostAction)
    (hp : s.pending = .wr 32 r.offset v :: rest) : step s = (s.takeAction rest).writeReg r v := by
  rw [step_cons s _ rest hp]
  simp only [perform, writeAction, accessedReg_offset]

/-- A 32-bit read at a register's offset replies with what the register holds (R24, R240). -/
theorem step_rd_ok (s : State) (r : HostReg) (v : Word) (rest : List HostAction)
    (hp : s.pending = .rd 32 r.offset :: rest) (hv : s.readReg r = .ok v) :
    step s = .next { s.takeAction rest with reply := some (.word v) } := by
  rw [step_cons s _ rest hp]
  simp only [perform, readAction, accessedReg_offset, State.takeAction_readReg, hv]

theorem step_rd_error (s : State) (r : HostReg) (f : Fault) (rest : List HostAction)
    (hp : s.pending = .rd 32 r.offset :: rest) (hf : s.readReg r = .error f) : step s = .fault f := by
  rw [step_cons s _ rest hp]
  simp only [perform, readAction, accessedReg_offset, State.takeAction_readReg, hf]

theorem readReg_hostReg (s : State) (r : ResultReg) : s.readReg r.hostReg = resultValue r (s.result r) := by
  cases r <;> rfl

/-- Settles O31: RESET's values, every command's results, and the host's read of a result register. -/
theorem resultRegistersHoldValuesAsRuled : Obligations.ResultRegistersHoldValuesAsRuled := by
  refine ⟨reset_result, exec_resultRuled, fun s r rest hp => ⟨fun hnone => ?_, fun v hv => ?_⟩⟩
  · exact step_rd_error s r.hostReg _ rest hp (by rw [readReg_hostReg, hnone]; rfl)
  · exact step_rd_ok s r.hostReg v rest hp (by rw [readReg_hostReg, hv]; rfl)

/-! ## What no command writes, and the permutations it takes -/

/-- Settles O34: each way a command can end writes only the fields its rule names. -/
theorem commandsWriteOnlyTheirOwnState : Obligations.CommandsWriteOnlyTheirOwnState := by
  intro i s t h
  rcases exec_next i s t h with ⟨e, -, -, -, rfl⟩ | ⟨v, -, rfl⟩ | ⟨w, -, rfl⟩ | ⟨hi, -, rfl⟩ | ⟨hi, -, rfl⟩
  · exact ⟨rfl, rfl, rfl, rfl, rfl, rfl, rfl, fun _ => ⟨rfl, rfl⟩, fun _ => rfl⟩
  · exact ⟨rfl, rfl, rfl, rfl, rfl, rfl, rfl, fun _ => ⟨rfl, rfl⟩, fun _ => rfl⟩
  · exact ⟨rfl, rfl, rfl, rfl, rfl, rfl, rfl, fun _ => ⟨rfl, rfl⟩, fun _ => rfl⟩
  · exact ⟨rfl, rfl, rfl, rfl, rfl, rfl, rfl, fun hn => absurd hi hn, fun _ => rfl⟩
  · exact ⟨rfl, rfl, rfl, rfl, rfl, rfl, rfl, fun _ => ⟨rfl, rfl⟩, fun hn => absurd hi hn⟩

/-- Settles O28: `Config.perms` is the pair of the two opaque permutations. -/
theorem everyCommandTakesTheBlocksPermutations : Obligations.EveryCommandTakesTheBlocksPermutations := by
  intro s
  have hperms : Config.Perms.mk Config.pixelPerm Config.slotPerm = Config.perms := rfl
  rw [hperms]
  exact ⟨fun _ _ => rfl, fun _ _ => rfl, fun _ => rfl, fun _ => rfl, rfl, rfl⟩

/-! ## Register writes and refused accesses (R24, R25, R29, R240, R241, R244) -/

/-- No register sits at or above 0x2C or at an offset that is no multiple of 4 (R23). -/
theorem HostReg.offset_lt_and_aligned (r : HostReg) : r.offset < 0x2C ∧ r.offset % 4 = 0 := by
  cases r <;> decide

/-- An access of another width or at an unlisted offset reaches no register (R24). -/
theorem accessedReg_eq_none (bits offset : Nat) (h : bits ≠ 32 ∨ 0x2C ≤ offset ∨ offset % 4 ≠ 0) :
    accessedReg bits offset = none := by
  rw [Option.eq_none_iff_forall_ne_some]
  intro r hr
  obtain ⟨hbits, hoffset⟩ := (accessedReg_eq_some bits offset r).1 hr
  have := r.offset_lt_and_aligned
  omega

/-- The read-only registers by their offsets (R23). -/
theorem exists_readOnly_of_mem (offset : Nat) (h : offset ∈ [0x08, 0x10, 0x14, 0x18, 0x1C, 0x20, 0x24, 0x28]) :
    ∃ r : HostReg, r.writable = false ∧ offset = r.offset := by
  have hlist : [0x08, 0x10, 0x14, 0x18, 0x1C, 0x20, 0x24, 0x28]
      = (HostReg.all.filter fun r => !r.writable).map HostReg.offset := by decide
  rw [hlist] at h
  obtain ⟨r, hr, rfl⟩ := List.mem_map.1 h
  exact ⟨r, by simpa using (List.mem_filter.1 hr).2, rfl⟩

/-- A write to a read-only register changes nothing (R24). -/
theorem writeReg_readOnly (s : State) (r : HostReg) (v : Word) (h : r.writable = false) : s.writeReg r v = .next s := by
  cases r
  case cmdA => cases h
  case cmdHi => cases h
  case config => cases h
  all_goals rfl

/-- CONFIG keeps bit 0 of what is written (R29). -/
theorem ControlReg.ofWord_eq (v : Word) : ControlReg.ofWord v = ⟨decide (v.toNat % 2 = 1)⟩ := by
  simp [ControlReg.ofWord, BitVec.getLsbD, Nat.testBit_zero]

/-- Settles O43: each write by the register at its offset, and a refusal where there is none. -/
theorem registerWritesFollowTheMap : Obligations.RegisterWritesFollowTheMap := by
  intro s rest bits offset v
  refine ⟨fun hp => ⟨?cmdA, ?config, ?readOnly, ?refusedWrite⟩, ?refusedRead⟩
  case cmdA =>
    rintro rfl rfl
    exact step_wr s .cmdA v rest hp
  case config =>
    rintro rfl rfl
    rw [step_wr s .config v rest hp, ← ControlReg.ofWord_eq]
    rfl
  case readOnly =>
    rintro rfl hmem
    obtain ⟨r, hr, rfl⟩ := exists_readOnly_of_mem offset hmem
    rw [step_wr s r v rest hp, writeReg_readOnly _ r v hr]
  case refusedWrite =>
    intro h
    rw [step_cons s _ rest hp]
    simp only [perform, writeAction, accessedReg_eq_none bits offset h]
  case refusedRead =>
    intro hp h
    rw [step_cons s _ rest hp]
    simp only [perform, readAction, accessedReg_eq_none bits offset h]

theorem writeAction_refused_iff (bits offset : Nat) (v : Word) (s : State) :
    (∃ r, writeAction bits offset v s = .refused r) ↔ accessedReg bits offset = none := by
  unfold writeAction
  cases accessedReg bits offset with
  | none => simp
  | some r =>
    obtain ⟨t, ht⟩ := writeReg_answers s r v
    simp [ht]

theorem readAction_refused_iff (bits offset : Nat) (s : State) :
    (∃ r, readAction bits offset s = .refused r) ↔ accessedReg bits offset = none := by
  unfold readAction
  cases accessedReg bits offset with
  | none => simp
  | some r => cases hv : s.readReg r <;> simp [hv]

theorem attachSbAction_refused_iff (bytes : List Byte) (s : State) :
    (∃ r, attachSbAction bytes s = .refused r) ↔ ¬ bytes.length < 2 ^ 32 := by
  unfold attachSbAction
  split <;> simp_all

theorem attachRiAction_refused_iff (w h : Nat) (bytes : List Byte) (s : State) :
    (∃ r, attachRiAction w h bytes s = .refused r) ↔ ¬ (w < 65536 ∧ h < 65536 ∧ bytes.length = w * h * 4) := by
  unfold attachRiAction
  split <;> simp_all

/-- A host action is refused exactly when it is not well formed, whatever the state (R24, R240, R241, R244). -/
theorem perform_refused_iff (a : HostAction) (s : State) : (∃ r, perform a s = .refused r) ↔ a.wellFormed = false := by
  cases a with
  | wr bits offset v => simp [perform, writeAction_refused_iff, HostAction.wellFormed]
  | rd bits offset => simp [perform, readAction_refused_iff, HostAction.wellFormed]
  | attachSb bytes => simp [perform, attachSbAction_refused_iff, HostAction.wellFormed]
  | attachRi w h bytes => simp [perform, attachRiAction_refused_iff, HostAction.wellFormed]
  | reset => simp [perform, HostAction.wellFormed]
  | readSb => simp [perform, HostAction.wellFormed]
  | readRi => simp [perform, HostAction.wellFormed]
  | stopIfError => simp [perform, HostAction.wellFormed]
  | otherBufferAccess => simp [perform, HostAction.wellFormed]

/-- Settles O45: a step performs the host's next action, which is refused exactly when it is not well formed. -/
theorem refusedExactlyWhenTheActionHasNoMeaning : Obligations.RefusedExactlyWhenTheActionHasNoMeaning := by
  intro s a rest hp
  rw [step_cons s a rest hp]
  exact perform_refused_iff a _

/-! ## Register reads (R23, R28, R29, R31, R33) -/

theorem toNat_statusWord (st : Status) : st.word.toNat = st.code.toNat + (if st.sticky then 256 else 0) := by
  have hcode := st.code.isLt
  rw [Status.word, BitVec.toNat_ofNat]
  split <;> omega

theorem toNat_configWord (c : ControlReg) : c.word.toNat = if c.enforceMagic then 1 else 0 := by
  cases h : c.enforceMagic <;> simp [ControlReg.word, h]

theorem toNat_riDimWord (d : RasterDim) : d.word.toNat = d.w.toNat + 65536 * d.h.toNat := by
  have hw := d.w.isLt
  rw [RasterDim.word, BitVec.toNat_append, ← Nat.shiftLeft_add_eq_or_of_lt hw, Nat.shiftLeft_eq]
  omega

/-- A read of a channel register that holds a byte replies with it, bits [31:8] being 0 (R31). -/
theorem step_rd_channel (s : State) (r : HostReg) (c : Byte) (rest : List HostAction)
    (hp : s.pending = .rd 32 r.offset :: rest) (hr : s.readReg r = .ok (c.setWidth 32)) :
    ∃ v : Word, v.toNat = c.toNat ∧ step s = .next { s.takeAction rest with reply := some (.word v) } := by
  have hc := c.isLt
  refine ⟨c.setWidth 32, ?_, step_rd_ok s r _ rest hp hr⟩
  rw [BitVec.toNat_setWidth]
  omega

/-- Settles O42: the register at each offset, and its fields as the word it reads. -/
theorem registerReadsReturnTheirFields : Obligations.RegisterReadsReturnTheirFields := by
  intro s rest offset hp
  refine ⟨?cmdA, ?cmdHi, ?status, ?config, ?res, ?channels, ?sbLen, ?riDim⟩
  case cmdA => rintro rfl; exact step_rd_ok s .cmdA _ rest hp rfl
  case cmdHi => rintro rfl; exact step_rd_ok s .cmdHi _ rest hp rfl
  case status => rintro rfl; exact ⟨_, toNat_statusWord s.status, step_rd_ok s .status _ rest hp rfl⟩
  case config => rintro rfl; exact ⟨_, toNat_configWord s.config, step_rd_ok s .config _ rest hp rfl⟩
  case res => rintro rfl v hv; exact step_rd_ok s .res v rest hp (by simp [State.readReg, resultValue, hv])
  case channels =>
    rintro c (⟨rfl, hc⟩ | ⟨rfl, hc⟩ | ⟨rfl, hc⟩ | ⟨rfl, hc⟩)
    · exact step_rd_channel s .resR c rest hp (by simp [State.readReg, resultValue, hc])
    · exact step_rd_channel s .resG c rest hp (by simp [State.readReg, resultValue, hc])
    · exact step_rd_channel s .resB c rest hp (by simp [State.readReg, resultValue, hc])
    · exact step_rd_channel s .resA c rest hp (by simp [State.readReg, resultValue, hc])
  case sbLen => rintro rfl; exact step_rd_ok s .sbLen _ rest hp rfl
  case riDim => rintro rfl; exact ⟨_, toNat_riDimWord s.riDim, step_rd_ok s .riDim _ rest hp rfl⟩

/-! ## Launches (R26, R85, R88) -/

theorem launch_ok (s : State) (i : Instr) (h : decode s.command = .ok i) : launch s = exec i s := by
  simp only [launch, h]

/-- Settles O37: the write stores CMD_HI, and the launch then runs the word the two registers hold. -/
theorem stepRunsTheLaunchedCommand : Obligations.StepRunsTheLaunchedCommand := by
  intro s v rest i hp hdecode _
  rw [step_wr s .cmdHi v rest hp]
  exact launch_ok { s.takeAction rest with cmdHi := v } i hdecode

/-- The decoder reads every encoded command back: its three fields are the encoder's, and each row's "must be 0" fields
are 0 (R80 to R83). -/
theorem decode_encode (i : Instr) : decode (encode i) = .ok i := by
  rw [decode, opcodeOf_encode, opbOf_encode, opaOf_encode]
  cases i with
  | packColor r g b a =>
    obtain ⟨hr, hg, hb, ha⟩ := lanes_of_append r g b a
    simp [decodeFields, opcodeFor, opbFor, opaFor, hr, hg, hb, ha]
  | mapPixel ix b => rfl
  | unmapPixel o b => rfl
  | unpackColor w => rfl
  | mapSlot w => rfl
  | unmapSlot w => rfl
  | extract => rfl
  | inject => rfl

/-- The encoder's fields as the two registers of a launch hold them (R26, R80, R88). -/
theorem encode_eq_commandWord (i : Instr) : encode i = commandWord (opcodeFor i ++ opbFor i) (opaFor i) := rfl

/-- A 64-bit word is the table word of its own number. -/
theorem tableWord_toNat (w : CommandWord) : tableWord 64 w.toNat = w := by
  rw [tableWord, Nat.mod_eq_of_lt w.isLt, BitVec.ofNat_toNat, BitVec.setWidth_eq]

/-- Settles O48: the placed state's next action writes the upper half of the word whose lower half CMD_A holds. -/
theorem placedCommandRunsNext : Obligations.PlacedCommandRunsNext := by
  intro i s
  have hhi : cmdHiOf (encode i) = opcodeFor i ++ opbFor i := by rw [encode_eq_commandWord, cmdHiOf_commandWord]
  have hlo : cmdAOf (encode i) = opaFor i := by rw [encode_eq_commandWord, cmdAOf_commandWord]
  have hplaced : s.withFetchWord 64 (encode i).toNat
      = { s with cmdA := opaFor i, pending := .wr 32 0x04 (opcodeFor i ++ opbFor i) :: s.pending } := by
    simp only [State.withFetchWord, tableWord_toNat, State.placeCommand, launchAction, hhi, hlo, HostReg.offset]
  rw [hplaced]
  exact stepRunsTheLaunchedCommand _ _ s.pending i rfl (decode_encode i) i.wellFormed_true

end Sys2Proof.Machine
end

section
/-! PROOFS of the statements about the save buffer's layout (20_memory.md): no command writes its header or its tail (O35). -/

namespace Sys2Proof.Machine

/-- The save buffer a command leaves: the old one, or the one a successful INJECT commits (R179, R181). -/
theorem exec_sb (i : Instr) (s t : State) (h : exec i s = .next t) :
    t.sb = s.sb ∨ t.sb = injectedSb Config.perms s := by
  rcases exec_next i s t h with ⟨e, -, -, -, rfl⟩ | ⟨v, -, rfl⟩ | ⟨w, -, rfl⟩ | ⟨-, -, rfl⟩ | ⟨-, -, rfl⟩
  case inr.inr.inr.inr => exact .inr (injected_sb Config.perms s)
  all_goals exact .inl rfl

/-- INJECT's one write covers the index block and the palette block, `[36, 17444)`, and no other byte (R56, R179). -/
theorem read_injectedSb_outside (P : Config.Perms) (s : State) (a : Nat) (ha : a < 36 ∨ 17444 ≤ a) :
    (injectedSb P s).read a = s.sb.read a := by
  rw [read_injectedSb, dif_neg (by omega)]

/-- Settles O35: a command keeps the save buffer or commits INJECT's write, which lies inside the two blocks. -/
theorem headerAndTailAreNeverWritten : Obligations.HeaderAndTailAreNeverWritten := by
  intro i s t a h ha
  rcases exec_sb i s t h with hsb | hsb
  · rw [hsb]
  · rw [hsb, read_injectedSb_outside Config.perms s a ha]

end Sys2Proof.Machine
end

section
/-! PROOFS of the statements about the encoding (30_encoding.md): decoding and encoding undo each other (O1, O2), the match
and mask table (O3), the illegal words (O4), and what the assembler makes of a line (O39, O40, O41). -/

namespace Sys2Proof

/-! ## The three fields of a command word (R80, R81) -/

@[simp] theorem opcodeOf_append (op : BitVec 8) (opb : BitVec 24) (opa : Word) : opcodeOf (op ++ opb ++ opa) = op := by
  rw [opcodeOf, BitVec.extractLsb'_append_eq_of_le (by decide)]
  exact BitVec.extractLsb'_append_eq_left

@[simp] theorem opbOf_append (op : BitVec 8) (opb : BitVec 24) (opa : Word) : opbOf (op ++ opb ++ opa) = opb := by
  rw [opbOf, BitVec.extractLsb'_append_eq_of_le (by decide)]
  exact BitVec.extractLsb'_append_eq_right

@[simp] theorem opaOf_append (op : BitVec 8) (opb : BitVec 24) (opa : Word) : opaOf (op ++ opb ++ opa) = opa :=
  BitVec.extractLsb'_append_eq_right

/-- The three fields cover the command word: no bit lies outside them (R80). -/
theorem append_fields (w : CommandWord) : opcodeOf w ++ opbOf w ++ opaOf w = w := by
  apply BitVec.eq_of_getLsbD_eq
  intro k hk
  simp only [opcodeOf, opbOf, opaOf, BitVec.getLsbD_append, BitVec.getLsbD_extractLsb']
  by_cases hopa : k < 32
  · simp [hopa]
  · by_cases hopb : k - 32 < 24
    · simp [hopa, hopb, show 32 + (k - 32) = k by omega]
    · simp [hopa, hopb, show k - 32 - 24 < 8 by omega, show 56 + (k - 32 - 24) = k by omega]

/-- The four byte lanes cover OPA (R81). -/
theorem append_lanes (opa : Word) : laneA opa ++ laneB opa ++ laneG opa ++ laneR opa = opa := by
  apply BitVec.eq_of_getLsbD_eq
  intro k hk
  simp only [laneA, laneB, laneG, laneR, BitVec.getLsbD_append, BitVec.getLsbD_extractLsb']
  by_cases hr : k < 8
  · simp [hr]
  · by_cases hg : k - 8 < 8
    · simp [hr, hg, show 8 + (k - 8) = k by omega]
    · by_cases hb : k - 8 - 8 < 8
      · simp [hr, hg, hb, show 16 + (k - 8 - 8) = k by omega]
      · simp [hr, hg, hb, show k - 8 - 8 - 8 < 8 by omega, show 24 + (k - 8 - 8 - 8) = k by omega]

/-- The encoder writes the word whose three fields are the command's. -/
theorem encode_eq_of_fields {i : Instr} {w : CommandWord} (hop : opcodeFor i = opcodeOf w) (hopb : opbFor i = opbOf w)
    (hopa : opaFor i = opaOf w) : encode i = w := by
  rw [encode, hop, hopb, hopa, append_fields]

/-! ## Decoding and encoding undo each other (R80 to R85) -/

section Check

variable {ε α : Type} {p : Prop} [Decidable p] {a : α} {e : ε}

/-- A "must be 0" check that answers a command has passed. -/
theorem check_eq_ok {b : α} (h : (if p then Except.ok a else Except.error e) = Except.ok b) : p ∧ a = b := by
  split at h
  case isTrue hp => exact ⟨hp, Except.ok.inj h⟩
  case isFalse => cases h

/-- A "must be 0" check answers an error exactly when it does not pass. -/
theorem check_eq_error_iff : (∃ e', (if p then Except.ok a else Except.error e) = Except.error e') ↔ ¬ p := by
  by_cases h : p <;> simp [h]

end Check

/-- The decoder answers a command only for that command's own fields: OPCODE by its row, operands as they stand, and each
field the format marks "must be 0" checked to be 0 (R82, R83). -/
theorem fields_of_decodeFields_ok {op : BitVec 8} {opb : BitVec 24} {opa : Word} {i : Instr}
    (h : decodeFields op opb opa = .ok i) : opcodeFor i = op ∧ opbFor i = opb ∧ opaFor i = opa := by
  unfold decodeFields at h
  split at h
  case h_1 hop | h_2 hop =>
    cases h
    exact ⟨BitVec.eq_of_toNat_eq hop.symm, rfl, rfl⟩
  case h_3 hop =>
    obtain ⟨rfl, rfl⟩ := check_eq_ok h
    exact ⟨BitVec.eq_of_toNat_eq hop.symm, rfl, append_lanes opa⟩
  case h_4 hop | h_5 hop | h_6 hop =>
    obtain ⟨rfl, rfl⟩ := check_eq_ok h
    exact ⟨BitVec.eq_of_toNat_eq hop.symm, rfl, rfl⟩
  case h_7 hop | h_8 hop =>
    obtain ⟨⟨rfl, rfl⟩, rfl⟩ := check_eq_ok h
    exact ⟨BitVec.eq_of_toNat_eq hop.symm, rfl, rfl⟩
  case h_9 => cases h

/-- A word decodes to a command exactly when it is the word the encoder writes for it. -/
theorem decode_eq_ok_iff (w : CommandWord) (i : Instr) : decode w = .ok i ↔ encode i = w := by
  constructor
  · intro h
    obtain ⟨hop, hopb, hopa⟩ := fields_of_decodeFields_ok h
    exact encode_eq_of_fields hop hopb hopa
  · rintro rfl
    exact Machine.decode_encode i

/-- Settles O1: the decoder's three fields of an encoded word are the command's. -/
theorem decodeReadsBackEveryEncodedCommand : Obligations.DecodeReadsBackEveryEncodedCommand :=
  fun i _ => Machine.decode_encode i

/-- Settles O2: the fields of a legal word are those of its command, and they cover the word. -/
theorem encodeReadsBackEveryLegalWord : Obligations.EncodeReadsBackEveryLegalWord :=
  fun w i => (decode_eq_ok_iff w i).1

/-! ## The match and mask table (R84) -/

/-- No two rows bear the same mnemonic (R83). -/
theorem opcodeRow_eq_of_mnemonic {r r' : OpcodeRow} (hr : r ∈ opcodeRows) (hr' : r' ∈ opcodeRows)
    (h : r.mnemonic = r'.mnemonic) : r = r' :=
  List.inj_on_of_nodup_map (f := OpcodeRow.mnemonic) (by decide) hr hr' h

section Selects

variable {row : OpcodeRow} {w : CommandWord}

/-- Every row's mask covers OPCODE, so a word that selects the row has the row's OPCODE. -/
theorem opcodeOf_of_selects (hrow : row ∈ opcodeRows) (h : row.selects w = true) : opcodeOf w = opcodeOf row.pattern := by
  have hmask : ∀ r ∈ opcodeRows, opcodeOf r.mask = BitVec.allOnes 8 := by decide
  rw [← beq_iff_eq.1 h, opcodeOf, opcodeOf, BitVec.extractLsb'_and, ← opcodeOf, ← opcodeOf, hmask row hrow,
    BitVec.and_allOnes]

/-- Where the mask covers OPB, a word that selects the row has the row's OPB. -/
theorem opbOf_of_selects (hmask : opbOf row.mask = BitVec.allOnes 24) (h : row.selects w = true) :
    opbOf w = opbOf row.pattern := by
  rw [← beq_iff_eq.1 h, opbOf, opbOf, BitVec.extractLsb'_and, ← opbOf, ← opbOf, hmask, BitVec.and_allOnes]

/-- Where the mask covers OPA, a word that selects the row has the row's OPA. -/
theorem opaOf_of_selects (hmask : opaOf row.mask = BitVec.allOnes 32) (h : row.selects w = true) :
    opaOf w = opaOf row.pattern := by
  rw [← beq_iff_eq.1 h, opaOf, opaOf, BitVec.extractLsb'_and, ← opaOf, ← opaOf, hmask, BitVec.and_allOnes]

/-- A word that selects a row is the encoding of one of that row's commands: the fields its mask covers are the row's, and
the others are the operands. -/
theorem exists_encode_of_selects (hrow : row ∈ opcodeRows) (h : row.selects w = true) :
    ∃ i, encode i = w ∧ mnemonicOf i = row.mnemonic := by
  have hop := opcodeOf_of_selects hrow h
  simp only [opcodeRows, List.mem_cons, List.not_mem_nil, or_false] at hrow
  rcases hrow with rfl | rfl | rfl | rfl | rfl | rfl | rfl | rfl
  · exact ⟨.mapPixel (opaOf w) (opbOf w), encode_eq_of_fields hop.symm rfl rfl, rfl⟩
  · exact ⟨.unmapPixel (opaOf w) (opbOf w), encode_eq_of_fields hop.symm rfl rfl, rfl⟩
  · have hopb := opbOf_of_selects rfl h
    exact ⟨.packColor (laneR (opaOf w)) (laneG (opaOf w)) (laneB (opaOf w)) (laneA (opaOf w)),
      encode_eq_of_fields hop.symm hopb.symm (append_lanes (opaOf w)), rfl⟩
  · exact ⟨.unpackColor (opaOf w), encode_eq_of_fields hop.symm (opbOf_of_selects rfl h).symm rfl, rfl⟩
  · exact ⟨.mapSlot (opaOf w), encode_eq_of_fields hop.symm (opbOf_of_selects rfl h).symm rfl, rfl⟩
  · exact ⟨.unmapSlot (opaOf w), encode_eq_of_fields hop.symm (opbOf_of_selects rfl h).symm rfl, rfl⟩
  · exact ⟨.extract, encode_eq_of_fields hop.symm (opbOf_of_selects rfl h).symm (opaOf_of_selects rfl h).symm, rfl⟩
  · exact ⟨.inject, encode_eq_of_fields hop.symm (opbOf_of_selects rfl h).symm (opaOf_of_selects rfl h).symm, rfl⟩

end Selects

/-- Every command's word selects a row that bears its mnemonic. -/
theorem exists_row_selects_encode (i : Instr) : Laws.RowSelects.Statement i := by
  cases i with
  | mapPixel ix b => exact Laws.RowSelects.mapPixel ix b
  | unmapPixel o b => exact Laws.RowSelects.unmapPixel o b
  | packColor r g b a => exact Laws.RowSelects.packColor r g b a
  | unpackColor w => exact Laws.RowSelects.unpackColor w
  | mapSlot s => exact Laws.RowSelects.mapSlot s
  | unmapSlot t => exact Laws.RowSelects.unmapSlot t
  | extract => exact Laws.RowSelects.extract
  | inject => exact Laws.RowSelects.inject

/-- A word selects a row of the table exactly when it decodes to that row's command (R84, R85). -/
theorem selects_iff_decode {row : OpcodeRow} (hrow : row ∈ opcodeRows) (w : CommandWord) :
    row.selects w = true ↔ ∃ i, decode w = .ok i ∧ mnemonicOf i = row.mnemonic := by
  simp only [decode_eq_ok_iff]
  constructor
  · exact exists_encode_of_selects hrow
  · rintro ⟨i, rfl, hname⟩
    obtain ⟨row', hrow', hname', hsel⟩ := exists_row_selects_encode i
    rwa [opcodeRow_eq_of_mnemonic hrow hrow' (hname.symm.trans hname'.symm)]

/-- Settles O3: a selected row is the decoded command's, which has one mnemonic and selects a row of its own. -/
theorem decodingFollowsMatchAndMask : Obligations.DecodingFollowsMatchAndMask := by
  refine ⟨fun w row hrow => selects_iff_decode hrow w, fun w r r' hr hr' hsel hsel' => ?disjoint, fun w => ⟨?none, ?illegal⟩⟩
  case disjoint =>
    obtain ⟨i, hi, hname⟩ := (selects_iff_decode hr w).1 hsel
    obtain ⟨i', hi', hname'⟩ := (selects_iff_decode hr' w).1 hsel'
    obtain rfl : i = i' := Except.ok.inj (hi.symm.trans hi')
    exact opcodeRow_eq_of_mnemonic hr hr' (hname.symm.trans hname')
  case none =>
    rintro ⟨e, he⟩ row hrow
    rw [Bool.eq_false_iff]
    intro hsel
    obtain ⟨i, hi, -⟩ := (selects_iff_decode hrow w).1 hsel
    cases he.symm.trans hi
  case illegal =>
    intro hnone
    cases hw : decode w with
    | error e => exact ⟨e, rfl⟩
    | ok i =>
      obtain ⟨row, hrow, -, hsel⟩ := exists_row_selects_encode i
      rw [(decode_eq_ok_iff w i).1 hw, hnone row hrow] at hsel
      cases hsel

/-! ## The illegal words (R82, R83, R86) -/

/-- Decoding a word given by its three fields. -/
theorem decode_append (op : BitVec 8) (opb : BitVec 24) (opa : Word) :
    decode (op ++ opb ++ opa) = decodeFields op opb opa := by
  rw [decode, opcodeOf_append, opbOf_append, opaOf_append]

/-- Settles O4: the decoder's arms, one by one; the last one answers every OPCODE without a command. -/
theorem illegalExactlyWhenReservedOrNonzeroField : Obligations.IllegalExactlyWhenReservedOrNonzeroField := by
  intro op opb opa
  rw [decode_append]
  unfold decodeFields
  split
  case h_1 hop | h_2 hop => simp [hop]
  case h_3 hop | h_4 hop | h_5 hop | h_6 hop => simp [hop, check_eq_error_iff]
  case h_7 hop | h_8 hop => simp [hop, check_eq_error_iff, imp_iff_not_or]
  case h_9 h1 h2 h3 h4 h5 h6 h16 h17 =>
    have hreserved : op.toNat = 0 ∨ (7 ≤ op.toNat ∧ op.toNat ≤ 15) ∨ 18 ≤ op.toNat := by
      simp only [imp_false] at h1 h2 h3 h4 h5 h6 h16 h17
      omega
    refine ⟨fun _ => ?_, fun _ => ⟨_, rfl⟩⟩
    rcases hreserved with h | h | h
    · exact .inl h
    · exact .inr (.inl h)
    · exact .inr (.inr (.inl h))

end Sys2Proof

namespace Sys2Proof.Machine

/-! ## A command line's two writes (R88) -/

/-- The two writes of a command word given by its halves. -/
theorem wordActions_append (hi lo : Word) : wordActions (hi ++ lo) = [.wr 32 0x00 lo, .wr 32 0x04 hi] := by
  have hhi : cmdHiOf (hi ++ lo) = hi := cmdHiOf_commandWord hi lo
  have hlo : cmdAOf (hi ++ lo) = lo := cmdAOf_commandWord hi lo
  rw [wordActions, launchAction, hhi, hlo, HostReg.offset, HostReg.offset]

theorem commandActions_eq (i : Instr) :
    commandActions i = [.wr 32 0x00 (opaFor i), .wr 32 0x04 (opcodeFor i ++ opbFor i)] :=
  wordActions_append (opcodeFor i ++ opbFor i) (opaFor i)

/-- A run goes on from the state its first step answers. -/
theorem run_succ_of_step (M : Host.Core) (k : Nat) {s t : M.State} (h : M.step s = .next t) :
    M.run (k + 1) s = M.run k t := by
  rw [Host.Core.run, h]

/-- A run of one step is the step. -/
theorem run_one (M : Host.Core) (s : M.State) : M.run 1 s = M.step s := by
  rw [Host.Core.run]
  cases M.step s <;> rfl

/-- With a command's OPA in CMD_A, the write of its upper half to CMD_HI runs it (R26, R88). -/
theorem step_launches_encoded (s : State) (i : Instr) (rest : List HostAction) (hopa : s.cmdA = opaFor i)
    (hp : s.pending = .wr 32 0x04 (opcodeFor i ++ opbFor i) :: rest) :
    step s = exec i { s with
      cmdHi := opcodeFor i ++ opbFor i, pending := rest, hostIndex := s.hostIndex + 1, reply := none } := by
  refine stepRunsTheLaunchedCommand s _ rest i hp ?_ i.wellFormed_true
  rw [hopa]
  exact decode_encode i

/-- Settles O39: the first write stores CMD_A, and the second launches the word the encoder wrote. -/
theorem commandLineRunsInTwoWrites : Obligations.CommandLineRunsInTwoWrites := by
  refine fun i s rest => ⟨commandActions_eq i, fun hp => ?_⟩
  rw [commandActions_eq] at hp
  have hfirst := step_wr s .cmdA (opaFor i) (.wr 32 0x04 (opcodeFor i ++ opbFor i) :: rest) hp
  have hsecond := step_launches_encoded
    { s.takeAction (.wr 32 0x04 (opcodeFor i ++ opbFor i) :: rest) with cmdA := opaFor i } i rest rfl rfl
  exact (run_succ_of_step core 1 hfirst).trans ((run_one core _).trans hsecond)

/-! ## What the assembler makes of each line with operands (R87, R89) -/

/-- What a line with operands `a` for OPA and `b` for OPB of the command `mk` assembles to (R87). -/
def addressLine (mk : Word → BitVec 24 → Instr) (a b : Nat) : Option (List HostAction) :=
  if a < 2 ^ 32 ∧ b < 2 ^ 24 then some (commandActions (mk (BitVec.ofNat 32 a) (BitVec.ofNat 24 b))) else none

theorem assemble_mapPixel (a b : Nat) : assemble (.mapPixel a b) = addressLine .mapPixel a b := by
  simp only [assemble, addressLine, AsmLine.wellFormed, AsmLine.actions, Bool.and_eq_true, decide_eq_true_eq]

theorem assemble_unmapPixel (a b : Nat) : assemble (.unmapPixel a b) = addressLine .unmapPixel a b := by
  simp only [assemble, addressLine, AsmLine.wellFormed, AsmLine.actions, Bool.and_eq_true, decide_eq_true_eq]

theorem assemble_packColor (r g b a : Nat) : assemble (.packColor r g b a) =
    if r < 2 ^ 8 ∧ g < 2 ^ 8 ∧ b < 2 ^ 8 ∧ a < 2 ^ 8 then
      some (commandActions (.packColor (BitVec.ofNat 8 r) (BitVec.ofNat 8 g) (BitVec.ofNat 8 b) (BitVec.ofNat 8 a)))
    else none := by
  simp only [assemble, AsmLine.wellFormed, AsmLine.actions, Bool.and_eq_true, decide_eq_true_eq, and_assoc]

/-- What a line with one 32-bit operand `n` of the command `mk` assembles to (R87). -/
def wordLine (mk : Word → Instr) (n : Nat) : Option (List HostAction) :=
  if n < 2 ^ 32 then some (commandActions (mk (BitVec.ofNat 32 n))) else none

theorem assemble_unpackColor (n : Nat) : assemble (.unpackColor n) = wordLine .unpackColor n := by
  simp only [assemble, wordLine, AsmLine.wellFormed, AsmLine.actions, decide_eq_true_eq]

theorem assemble_mapSlot (n : Nat) : assemble (.mapSlot n) = wordLine .mapSlot n := by
  simp only [assemble, wordLine, AsmLine.wellFormed, AsmLine.actions, decide_eq_true_eq]

theorem assemble_unmapSlot (n : Nat) : assemble (.unmapSlot n) = wordLine .unmapSlot n := by
  simp only [assemble, wordLine, AsmLine.wellFormed, AsmLine.actions, decide_eq_true_eq]

/-- A number that fits a field is the number the field holds. -/
theorem toNat_ofNat_of_lt {width n : Nat} (h : n < 2 ^ width) : (BitVec.ofNat width n).toNat = n := by
  rw [BitVec.toNat_ofNat, Nat.mod_eq_of_lt h]

theorem addressLine_eq_some {mk : Word → BitVec 24 → Instr} {a b : Nat} {acts : List HostAction}
    (h : addressLine mk a b = some acts) :
    ∃ (i : Word) (d : BitVec 24), i.toNat = a ∧ d.toNat = b ∧ acts = commandActions (mk i d) := by
  rw [addressLine, Option.ite_none_right_eq_some] at h
  obtain ⟨⟨ha, hb⟩, hacts⟩ := h
  exact ⟨_, _, toNat_ofNat_of_lt ha, toNat_ofNat_of_lt hb, (Option.some.inj hacts).symm⟩

theorem addressLine_eq_none (mk : Word → BitVec 24 → Instr) {a b : Nat} (h : 2 ^ 32 ≤ a ∨ 2 ^ 24 ≤ b) :
    addressLine mk a b = none :=
  if_neg (by omega)

theorem addressLine_of_lt (mk : Word → BitVec 24 → Instr) {a b : Nat} (ha : a < 2 ^ 32) (hb : b < 2 ^ 24) :
    addressLine mk a b = some (commandActions (mk (BitVec.ofNat 32 a) (BitVec.ofNat 24 b))) :=
  if_pos ⟨ha, hb⟩

theorem wordLine_eq_some {mk : Word → Instr} {n : Nat} {acts : List HostAction} (h : wordLine mk n = some acts) :
    ∃ w : Word, w.toNat = n ∧ acts = commandActions (mk w) := by
  rw [wordLine, Option.ite_none_right_eq_some] at h
  obtain ⟨hn, hacts⟩ := h
  exact ⟨BitVec.ofNat 32 n, toNat_ofNat_of_lt hn, (Option.some.inj hacts).symm⟩

theorem wordLine_eq_none (mk : Word → Instr) {n : Nat} (h : 2 ^ 32 ≤ n) : wordLine mk n = none :=
  if_neg (Nat.not_lt.2 h)

theorem wordLine_toNat (mk : Word → Instr) (w : Word) : wordLine mk w.toNat = some (commandActions (mk w)) := by
  rw [wordLine, if_pos w.isLt, BitVec.ofNat_toNat, BitVec.setWidth_eq]

/-- Settles O40: each line's equation says which operands it takes and which command it then launches. -/
theorem assemblerNeverTruncatesAnOperand : Obligations.AssemblerNeverTruncatesAnOperand := by
  refine ⟨?mapPixel, ?unmapPixel, ?packColor, ?unpackColor, ?mapSlot, ?unmapSlot, ?wideAB, ?wideRGBA, ?wideWord, ?fitAB,
    ?fitRGBA, ?fitWord, rfl, rfl⟩
  case mapPixel => exact fun a b acts h => addressLine_eq_some ((assemble_mapPixel a b).symm.trans h)
  case unmapPixel => exact fun a b acts h => addressLine_eq_some ((assemble_unmapPixel a b).symm.trans h)
  case packColor =>
    intro r g b a acts h
    rw [assemble_packColor, Option.ite_none_right_eq_some] at h
    obtain ⟨⟨hr, hg, hb, ha⟩, hacts⟩ := h
    exact ⟨_, _, _, _, toNat_ofNat_of_lt hr, toNat_ofNat_of_lt hg, toNat_ofNat_of_lt hb, toNat_ofNat_of_lt ha,
      (Option.some.inj hacts).symm⟩
  case unpackColor => exact fun n acts h => wordLine_eq_some ((assemble_unpackColor n).symm.trans h)
  case mapSlot => exact fun n acts h => wordLine_eq_some ((assemble_mapSlot n).symm.trans h)
  case unmapSlot => exact fun n acts h => wordLine_eq_some ((assemble_unmapSlot n).symm.trans h)
  case wideAB =>
    intro a b hwide
    rw [assemble_mapPixel, assemble_unmapPixel]
    exact ⟨addressLine_eq_none _ hwide, addressLine_eq_none _ hwide⟩
  case wideRGBA =>
    intro r g b a hwide
    rw [assemble_packColor, if_neg (by omega)]
  case wideWord =>
    intro n hwide
    rw [assemble_unpackColor, assemble_mapSlot, assemble_unmapSlot]
    exact ⟨wordLine_eq_none _ hwide, wordLine_eq_none _ hwide, wordLine_eq_none _ hwide⟩
  case fitAB =>
    intro a b ha hb
    rw [assemble_mapPixel, assemble_unmapPixel]
    exact ⟨addressLine_of_lt _ ha hb, addressLine_of_lt _ ha hb⟩
  case fitRGBA =>
    intro r g b a
    rw [assemble_packColor, if_pos ⟨r.isLt, g.isLt, b.isLt, a.isLt⟩]
    simp only [BitVec.ofNat_toNat, BitVec.setWidth_eq]
  case fitWord =>
    intro w
    rw [assemble_unpackColor, assemble_mapSlot, assemble_unmapSlot]
    exact ⟨wordLine_toNat _ w, wordLine_toNat _ w, wordLine_toNat _ w⟩

/-! ## The pseudo-instructions (R89) -/

/-- The default base 36 fits OPB, so only OPA can be too wide. -/
theorem assemble_mapPixelDefault (i : Nat) : assemble (.mapPixelDefault i) = assemble (.mapPixel i 36) := by
  have hbase : 36 < 2 ^ 24 := by decide
  simp only [assemble, AsmLine.wellFormed, hbase, decide_true, Bool.and_true]
  rfl

theorem assemble_unmapPixelDefault (o : Nat) : assemble (.unmapPixelDefault o) = assemble (.unmapPixel o 36) := by
  have hbase : 36 < 2 ^ 24 := by decide
  simp only [assemble, AsmLine.wellFormed, hbase, decide_true, Bool.and_true]
  rfl

/-- MAP_XY's own check keeps the index it computes inside OPA. -/
theorem assemble_mapXY (x y : Nat) :
    assemble (.mapXY x y) = if x ≤ 127 ∧ y ≤ 127 then assemble (.mapPixel (y * 128 + x) 36) else none := by
  rw [assemble_mapPixel, assemble]
  simp only [AsmLine.wellFormed, Bool.and_eq_true, decide_eq_true_eq]
  by_cases h : x ≤ 127 ∧ y ≤ 127
  · have hindex : y * 128 + x < 2 ^ 32 := by omega
    rw [if_pos h, if_pos h, addressLine_of_lt _ hindex (by decide)]
    rfl
  · rw [if_neg h, if_neg h]

/-- LAUNCH takes every 64-bit word, legal or not. -/
theorem assemble_launch_toNat (w : CommandWord) : assemble (.launch w.toNat) = some (wordActions w) := by
  have hw : (AsmLine.launch w.toNat).wellFormed = true := decide_eq_true w.isLt
  rw [assemble, if_pos hw, AsmLine.actions, BitVec.ofNat_toNat, BitVec.setWidth_eq]

/-- Settles O41: one equation per row of R89. -/
theorem pseudoInstructionsExpandAsListed : Obligations.PseudoInstructionsExpandAsListed := by
  refine ⟨assemble_mapPixelDefault, assemble_unmapPixelDefault, assemble_mapXY, fun hi lo => ?_⟩
  rw [assemble_launch_toNat, wordActions_append]

end Sys2Proof.Machine
end

section
/-! PROOFS of the statements about the address mapper (40_address_mapper.md): MAP_PIXEL (O6) and UNMAP_PIXEL (O7), that they
undo each other (O8), and that MAP_PIXEL with base 36 hits exactly the index block (O9). -/

namespace Sys2Proof.Machine

/-! ## How a command with the one result RES ends (R210, R211) -/

theorem State.setRes_succeed_eq (s : State) (v : Word) :
    (s.setRes v).succeed = { s with res := some v, status := ⟨0, s.status.sticky⟩ } :=
  congrArg (fun st => { s with res := some v, status := st }) (Status.record_ok s.status)

theorem State.raise_indexOutOfRange_eq (s : State) :
    s.raise scalarDests .indexOutOfRange = { s with res := none, status := ⟨3, true⟩ } :=
  congrArg (fun st => { s with res := none, status := st })
    (Status.record_error s.status .indexOutOfRange StatusCode.noConfusion)

/-! ## The two words of a pixel: its logical index, and its physical offset for a base (R100 to R102) -/

/-- The operand that names a logical pixel index. -/
def pixelWord (k : PixelIx) : Word := BitVec.ofNat 32 k.val

/-- The physical offset of a logical pixel index relative to the block base `b`, as RES holds it. -/
def offsetWord (b : BitVec 24) (k : PixelIx) : Word := BitVec.ofNat 32 (physicalOffset Config.perms b.toNat k)

@[simp] theorem toNat_pixelWord (k : PixelIx) : (pixelWord k).toNat = k.val :=
  toNat_ofNat_of_lt (by omega)

/-- A 24-bit base and an index below 16384 never carry out of the 32 bits of RES (R104). -/
@[simp] theorem toNat_offsetWord (b : BitVec 24) (k : PixelIx) :
    (offsetWord b k).toNat = b.toNat + (Config.pixelPerm k).val := by
  have hb := b.isLt
  have hsum : b.toNat + (Config.pixelPerm k).val < 2 ^ 32 := by omega
  exact toNat_ofNat_of_lt hsum

theorem pixelWord_of_lt (i : Word) (h : i.toNat < 16384) : pixelWord ⟨i.toNat, h⟩ = i :=
  BitVec.eq_of_toNat_eq (toNat_pixelWord _)

/-- An offset in the block at `b` is that of the pixel PixelPerm⁻¹ gives for its distance from the base (R101, R105). -/
theorem offsetWord_symm (o : Word) (b : BitVec 24) (h : b.toNat ≤ o.toNat ∧ o.toNat - b.toNat < 16384) :
    offsetWord b (Config.pixelPerm.symm ⟨o.toNat - b.toNat, h.2⟩) = o := by
  apply BitVec.eq_of_toNat_eq
  rw [toNat_offsetWord, Equiv.apply_symm_apply]
  exact Nat.add_sub_cancel' h.1

/-- Two pixels never share an offset: PixelPerm is one to one (R100). -/
theorem offsetWord_injective (b : BitVec 24) : Function.Injective (offsetWord b) := by
  intro i j h
  have hsum := congrArg BitVec.toNat h
  rw [toNat_offsetWord, toNat_offsetWord] at hsum
  exact Config.pixelPerm.injective (Fin.ext (Nat.add_left_cancel hsum))

/-- The offsets of the pixels are exactly the block of 16384 bytes at `b`: PixelPerm is onto (R100). -/
theorem exists_offsetWord_eq_iff (o : Word) (b : BitVec 24) :
    (∃ k, offsetWord b k = o) ↔ b.toNat ≤ o.toNat ∧ o.toNat < b.toNat + 16384 := by
  constructor
  · rintro ⟨k, rfl⟩
    have hk := (Config.pixelPerm k).isLt
    rw [toNat_offsetWord]
    omega
  · intro h
    exact ⟨_, offsetWord_symm o b (by omega)⟩

/-! ## What the two commands answer (R104, R105) -/

/-- MAP_PIXEL takes a pixel's index to its offset. -/
theorem exec_mapPixel_pixelWord (k : PixelIx) (b : BitVec 24) (s : State) :
    exec (.mapPixel (pixelWord k) b) s = .next (s.setRes (offsetWord b k)).succeed := by
  have hk : (pixelWord k).toNat < 16384 := by rw [toNat_pixelWord]; exact k.isLt
  have hsame : (⟨(pixelWord k).toNat, hk⟩ : PixelIx) = k := Fin.ext (toNat_pixelWord k)
  have hexec := mapPixelWith_ok Config.perms (pixelWord k) b s hk
  rwa [hsame] at hexec

/-- UNMAP_PIXEL takes a pixel's offset back to its index. -/
theorem exec_unmapPixel_offsetWord (k : PixelIx) (b : BitVec 24) (s : State) :
    exec (.unmapPixel (offsetWord b k) b) s = .next (s.setRes (pixelWord k)).succeed := by
  have hk := (Config.pixelPerm k).isLt
  have hin : b.toNat ≤ (offsetWord b k).toNat ∧ (offsetWord b k).toNat - b.toNat < 16384 := by
    rw [toNat_offsetWord]; omega
  have hpixel : Config.pixelPerm.symm ⟨(offsetWord b k).toNat - b.toNat, hin.2⟩ = k :=
    offsetWord_injective b (offsetWord_symm _ b hin)
  have hexec := unmapPixelWith_ok Config.perms (offsetWord b k) b s hin
  rwa [Config.perms_pixel, hpixel] at hexec

/-- Settles O6: an index in range is a pixel's, whose offset MAP_PIXEL writes; any other raises IndexOutOfRange. -/
theorem mapPixelWritesBasePlusPixelPerm : Obligations.MapPixelWritesBasePlusPixelPerm := by
  refine fun i b s => ⟨decode_append _ b i, fun h => ⟨offsetWord b ⟨i.toNat, h⟩, toNat_offsetWord b _, ?inRange⟩,
    fun h => ?outOfRange⟩
  case inRange =>
    have hexec := exec_mapPixel_pixelWord ⟨i.toNat, h⟩ b s
    rwa [pixelWord_of_lt i h, State.setRes_succeed_eq] at hexec
  case outOfRange =>
    rw [← State.raise_indexOutOfRange_eq]
    exact mapPixelWith_error Config.perms i b s (Nat.not_lt.2 h)

/-- Settles O7: an offset in the block is a pixel's, whose index UNMAP_PIXEL writes; any other raises
IndexOutOfRange. -/
theorem unmapPixelWritesInversePixelPerm : Obligations.UnmapPixelWritesInversePixelPerm := by
  refine fun o b s => ⟨decode_append _ b o,
    fun h => ⟨pixelWord (Config.pixelPerm.symm ⟨o.toNat - b.toNat, h.2⟩), toNat_pixelWord _, ?inBlock⟩,
    fun h => ?outsideBlock⟩
  case inBlock =>
    have hexec := exec_unmapPixel_offsetWord (Config.pixelPerm.symm ⟨o.toNat - b.toNat, h.2⟩) b s
    rwa [offsetWord_symm o b h, State.setRes_succeed_eq] at hexec
  case outsideBlock =>
    rw [← State.raise_indexOutOfRange_eq]
    exact unmapPixelWith_error Config.perms o b s (by omega)

/-! ## The two mappings as a pair (R106, R107) -/

theorem State.setRes_succeed_code (s : State) (v : Word) : (s.setRes v).succeed.status.code = 0 := by
  rw [State.setRes_succeed_eq]

/-- Settles O8: whichever word is given, it is the index or the offset of one pixel, and the other command answers that
pixel's other word. -/
theorem mapPixelAndUnmapPixelUndoEachOther : Obligations.MapPixelAndUnmapPixelUndoEachOther := by
  refine ⟨fun i b s hi => ?mapFirst, fun o b s hlo hhi => ?unmapFirst⟩
  case mapFirst =>
    obtain ⟨k, rfl⟩ : ∃ k, pixelWord k = i := ⟨_, pixelWord_of_lt i hi⟩
    exact ⟨offsetWord b k, _, exec_mapPixel_pixelWord k b s, State.setRes_succeed_code s _, rfl,
      fun s' => ⟨_, exec_unmapPixel_offsetWord k b s', State.setRes_succeed_code s' _, rfl⟩⟩
  case unmapFirst =>
    obtain ⟨k, rfl⟩ := (exists_offsetWord_eq_iff o b).2 ⟨hlo, hhi⟩
    exact ⟨pixelWord k, _, exec_unmapPixel_offsetWord k b s, State.setRes_succeed_code s _, rfl,
      fun s' => ⟨_, exec_mapPixel_pixelWord k b s', State.setRes_succeed_code s' _, rfl⟩⟩

/-- Settles O9: the results are the pixels' offsets for the base 36, which are one to one and fill the block. -/
theorem mapPixelHitsExactlyTheIndexBlock : Obligations.MapPixelHitsExactlyTheIndexBlock :=
  fun s => ⟨offsetWord 36, fun k => ⟨_, exec_mapPixel_pixelWord k 36 s, rfl⟩,
    fun _ _ hne => (offsetWord_injective 36).ne hne, fun o => exists_offsetWord_eq_iff o 36⟩

end Sys2Proof.Machine
end

section
/-! PROOFS of the statements about the palette codec (41_palette_codec.md): packing and unpacking a color (O11), PACK_COLOR
(O12) and UNPACK_COLOR (O13), MAP_SLOT (O14) and UNMAP_SLOT (O15), and that the two undo each other (O16). -/

namespace Sys2Proof.Machine

/-! ## Packing and unpacking a color (R120, R121) -/

@[simp] theorem unpack_pack (c : Color) : unpack (pack c) = c := by
  rw [← le32_eq_pack, unpack_le32]

/-- The channels of a word are its little-endian bytes, so packing them puts the word together again. -/
@[simp] theorem pack_unpack (w : Word) : pack (unpack w) = w :=
  le32_leBytes32 w

/-- The channels of a word are its base-256 digits; no digit stands above alpha. -/
theorem toNat_unpack (w : Word) : (unpack w).r.toNat = w.toNat % 256 ∧ (unpack w).g.toNat = w.toNat / 256 % 256 ∧
    (unpack w).b.toNat = w.toNat / 65536 % 256 ∧ (unpack w).a.toNat = w.toNat / 16777216 := by
  have hr : (unpack w).r.toNat = w.toNat / 2 ^ 0 % 256 := toNat_byteAt w 0
  have ha : (unpack w).a.toNat = w.toNat / 2 ^ 24 % 256 := toNat_byteAt w 24
  have hw := w.isLt
  exact ⟨by omega, toNat_byteAt w 8, toNat_byteAt w 16, by omega⟩

/-- Settles O11: unpacking reads the word's base-256 digits, and packing is the sum with those digits. -/
theorem packAndUnpackAreInverse : Obligations.PackAndUnpackAreInverse :=
  ⟨toNat_unpack, unpack_pack, pack_unpack, fun c => by rw [leBytes32_pack]; rfl⟩

/-! ## The four commands' words (R82, R83) -/

/-- The OPCODEs 3 to 6 need OPB to be 0 (R82, R86). -/
theorem decode_error_of_opb_ne_zero {op : BitVec 8} (hop : 3 ≤ op.toNat ∧ op.toNat ≤ 6) (opb : BitVec 24) (opa : Word)
    (hopb : opb ≠ 0) : ∃ e, decode (op ++ opb ++ opa) = .error e :=
  (illegalExactlyWhenReservedOrNonzeroField op opb opa).2 (.inr (.inr (.inr (.inl ⟨hop.1, hop.2, hopb⟩))))

/-- FMT-RGBA's lanes are the channels of OPA as a packed color (R81, R124). -/
theorem decode_packColor (w : Word) : decode (0x03#8 ++ 0#24 ++ w) =
    .ok (.packColor (unpack w).r (unpack w).g (unpack w).b (unpack w).a) :=
  decode_append _ 0 w

/-! ## PACK_COLOR and UNPACK_COLOR (R124, R125) -/

theorem exec_packColor (r g b a : Byte) (s : State) :
    exec (.packColor r g b a) s = .next (s.setRes (pack ⟨r, g, b, a⟩)).succeed := rfl

theorem exec_unpackColor (w : Word) (s : State) :
    exec (.unpackColor w) s = .next (s.setChannels (unpack w)).succeed := rfl

/-- How UNPACK_COLOR ends: the four channel registers hold values, and RES is as it was (R125, R211). -/
theorem State.setChannels_succeed_eq (s : State) (c : Color) :
    (s.setChannels c).succeed = { s with
      resR := some c.r, resG := some c.g, resB := some c.b, resA := some c.a, status := ⟨0, s.status.sticky⟩ } :=
  congrArg (fun st => { s with
    resR := some c.r, resG := some c.g, resB := some c.b, resA := some c.a, status := st }) (Status.record_ok s.status)

/-- Settles O12: the one word is both the operand, whose lanes are the channels, and the result. -/
theorem packColorWritesThePackedChannels : Obligations.PackColorWritesThePackedChannels := by
  refine ⟨decode_error_of_opb_ne_zero (by decide), fun r g b a s => ⟨pack ⟨r, g, b, a⟩, toNat_pack _, ?word, ?result⟩⟩
  case word => rw [decode_packColor, unpack_pack]
  case result => rw [exec_packColor, State.setRes_succeed_eq]

/-- Settles O13: the channels are those of the operand as a packed color. -/
theorem unpackColorWritesTheFourChannels : Obligations.UnpackColorWritesTheFourChannels := by
  refine ⟨decode_error_of_opb_ne_zero (by decide), fun w s => ?_⟩
  obtain ⟨hr, hg, hb, ha⟩ := toNat_unpack w
  refine ⟨_, _, _, _, hr, hg, hb, ha, decode_append _ 0 w, ?_⟩
  rw [exec_unpackColor, State.setChannels_succeed_eq]

/-! ## The word of a palette slot (R130) -/

/-- The word that names a palette slot, logical or physical, as an operand and in RES. -/
def slotWord (k : Slot) : Word := BitVec.ofNat 32 k.val

@[simp] theorem toNat_slotWord (k : Slot) : (slotWord k).toNat = k.val :=
  toNat_ofNat_of_lt (by omega)

theorem toNat_slotWord_lt (k : Slot) : (slotWord k).toNat < 256 := by
  rw [toNat_slotWord]
  exact k.isLt

/-- The slot an operand names is the one its word was made for. -/
theorem slot_of_toNat_slotWord (k : Slot) : (⟨(slotWord k).toNat, toNat_slotWord_lt k⟩ : Slot) = k :=
  Fin.ext (toNat_slotWord k)

theorem slotWord_of_lt (w : Word) (h : w.toNat < 256) : slotWord ⟨w.toNat, h⟩ = w :=
  BitVec.eq_of_toNat_eq (toNat_slotWord _)

theorem slotWord_injective : Function.Injective slotWord := by
  intro i j h
  rw [← slot_of_toNat_slotWord i, ← slot_of_toNat_slotWord j]
  exact Fin.ext (congrArg BitVec.toNat h)

theorem exists_slotWord_eq_iff (w : Word) : (∃ k, slotWord k = w) ↔ w.toNat < 256 := by
  constructor
  · rintro ⟨k, rfl⟩
    exact toNat_slotWord_lt k
  · exact fun h => ⟨_, slotWord_of_lt w h⟩

/-! ## MAP_SLOT and UNMAP_SLOT (R133, R134) -/

theorem exec_mapSlot_of_lt (w : Word) (s : State) (h : w.toNat < 256) :
    exec (.mapSlot w) s = .next (s.setRes (slotWord (Config.slotPerm ⟨w.toNat, h⟩))).succeed :=
  mapSlotWith_ok Config.perms w s h

theorem exec_unmapSlot_of_lt (w : Word) (s : State) (h : w.toNat < 256) :
    exec (.unmapSlot w) s = .next (s.setRes (slotWord (Config.slotPerm.symm ⟨w.toNat, h⟩))).succeed :=
  unmapSlotWith_ok Config.perms w s h

/-- Settles O14: an operand in range is a slot, which MAP_SLOT permutes; any other raises IndexOutOfRange. -/
theorem mapSlotWritesSlotPerm : Obligations.MapSlotWritesSlotPerm := by
  refine ⟨decode_error_of_opb_ne_zero (by decide), fun w s => ⟨decode_append _ 0 w,
    fun h => ⟨slotWord (Config.slotPerm ⟨w.toNat, h⟩), toNat_slotWord _, ?inRange⟩, fun h => ?outOfRange⟩⟩
  case inRange => rw [exec_mapSlot_of_lt w s h, State.setRes_succeed_eq]
  case outOfRange =>
    rw [← State.raise_indexOutOfRange_eq]
    exact mapSlotWith_error Config.perms w s (Nat.not_lt.2 h)

/-- Settles O15: an operand in range is a slot, which UNMAP_SLOT permutes back; any other raises IndexOutOfRange. -/
theorem unmapSlotWritesInverseSlotPerm : Obligations.UnmapSlotWritesInverseSlotPerm := by
  refine ⟨decode_error_of_opb_ne_zero (by decide), fun w s => ⟨decode_append _ 0 w,
    fun h => ⟨slotWord (Config.slotPerm.symm ⟨w.toNat, h⟩), toNat_slotWord _, ?inRange⟩, fun h => ?outOfRange⟩⟩
  case inRange => rw [exec_unmapSlot_of_lt w s h, State.setRes_succeed_eq]
  case outOfRange =>
    rw [← State.raise_indexOutOfRange_eq]
    exact unmapSlotWith_error Config.perms w s (Nat.not_lt.2 h)

/-! ## The two slot commands as a pair (R135) -/

/-- MAP_SLOT takes a logical slot to its physical slot. -/
theorem exec_mapSlot_slotWord (k : Slot) (s : State) :
    exec (.mapSlot (slotWord k)) s = .next (s.setRes (slotWord (Config.slotPerm k))).succeed := by
  rw [exec_mapSlot_of_lt _ s (toNat_slotWord_lt k), slot_of_toNat_slotWord]

/-- UNMAP_SLOT takes a physical slot to its logical slot. -/
theorem exec_unmapSlot_slotWord (k : Slot) (s : State) :
    exec (.unmapSlot (slotWord k)) s = .next (s.setRes (slotWord (Config.slotPerm.symm k))).succeed := by
  rw [exec_unmapSlot_of_lt _ s (toNat_slotWord_lt k), slot_of_toNat_slotWord]

/-- The physical slots of the logical slots are all the values below 256: SlotPerm is onto (R130). -/
theorem exists_slotWord_slotPerm_eq_iff (w : Word) :
    (∃ k, slotWord (Config.slotPerm k) = w) ↔ w.toNat < 256 := by
  rw [← exists_slotWord_eq_iff]
  exact (Config.slotPerm.surjective.exists (p := fun k => slotWord k = w)).symm

/-- Settles O16: MAP_SLOT's results are the words of the permuted slots, and either command takes the other's result back
to the slot it came from. -/
theorem mapSlotIsABijectionUndoneByUnmapSlot : Obligations.MapSlotIsABijectionUndoneByUnmapSlot := by
  refine ⟨fun s => ⟨fun k => slotWord (Config.slotPerm k), ?succeeds, ?distinct, exists_slotWord_slotPerm_eq_iff⟩,
    fun x s hx => ?undo⟩
  case succeeds => exact fun k => ⟨_, exec_mapSlot_slotWord k s, State.setRes_succeed_code s _, rfl⟩
  case distinct => exact fun _ _ hne => (slotWord_injective.comp Config.slotPerm.injective).ne hne
  case undo =>
    obtain ⟨k, rfl⟩ := (exists_slotWord_eq_iff x).2 hx
    refine ⟨⟨_, _, exec_mapSlot_slotWord k s, rfl, fun s' => ⟨(s'.setRes (slotWord k)).succeed, ?unmapLast, ?_, rfl⟩⟩,
      ⟨_, _, exec_unmapSlot_slotWord k s, rfl, fun s' => ⟨(s'.setRes (slotWord k)).succeed, ?mapLast, ?_, rfl⟩⟩⟩
    case unmapLast => rw [exec_unmapSlot_slotWord, Equiv.symm_apply_apply]
    case mapLast => rw [exec_mapSlot_slotWord, Equiv.apply_symm_apply]
    all_goals exact State.setRes_succeed_code s' _

end Sys2Proof.Machine
end

section
/-! PROOFS of the statements about the composition layer (42_composition.md): EXTRACT's ends, raster and inputs (O17 to O19),
INJECT's bytes and errors and the entries it does not use (O20 to O22), the round trip and the no-op edit (O23, O24),
canonical save buffers (O25, O26), and the all-black raster (O27). -/

namespace Sys2Proof.Machine

/-! ## The two command words and the ends of the two commands (R155, R175, R210, R211) -/

/-- The OPCODEs 16 and 17 need OPB and OPA to be 0 (R82, R86). -/
theorem decode_error_of_operand_ne_zero {op : BitVec 8} (hop : op.toNat = 16 ∨ op.toNat = 17) (opb : BitVec 24)
    (opa : Word) (hne : opb ≠ 0 ∨ opa ≠ 0) : ∃ e, decode (op ++ opb ++ opa) = .error e :=
  (illegalExactlyWhenReservedOrNonzeroField op opb opa).2 (.inr (.inr (.inr (.inr ⟨hop, hne⟩))))

/-- How a command with the one destination RES fails: nothing else changes but STATUS (R210). -/
theorem State.raise_scalar_eq (s : State) {e : StatusCode} (he : e ≠ .ok) :
    s.raise scalarDests e = { s with res := none, status := ⟨e.num, true⟩ } :=
  congrArg (fun st => { s with res := none, status := st }) (Status.record_error s.status e he)

theorem State.next_raise_scalar_eq (s : State) {e : StatusCode} (he : e ≠ .ok) :
    (.next (s.raise scalarDests e) : Host.Outcome State Fault Refusal) =
      .next { s with res := none, status := ⟨e.num, true⟩ } :=
  congrArg Host.Outcome.next (s.raise_scalar_eq he)

theorem extracted_eq (P : Config.Perms) (s : State) : extracted P s = { s with
    ri := .ofBytes (extractBytes P s.sb), riDim := ⟨128, 128⟩, res := some 65536, status := ⟨0, s.status.sticky⟩ } :=
  State.setRes_succeed_eq _ _

theorem injected_eq (P : Config.Perms) (s : State) : injected P s = { s with
    sb := injectedSb P s, res := some (BitVec.ofNat 32 (distinctColors s.ri)), status := ⟨0, s.status.sticky⟩ } :=
  State.setRes_succeed_eq _ _

theorem extracted_code (P : Config.Perms) (s : State) : (extracted P s).status.code = 0 := by
  rw [extracted_eq]

theorem injected_code (P : Config.Perms) (s : State) : (injected P s).status.code = 0 := by
  rw [injected_eq]

/-! ## The four bytes of a color (R35, R58, R121) -/

/-- The channels of a color read from four consecutive bytes are these bytes. -/
theorem getD_colorBytes_read (m : Memory) (a k : Nat) (hk : k < 4) :
    (colorBytes ⟨m.read a, m.read (a + 1), m.read (a + 2), m.read (a + 3)⟩).getD k 0 = m.read (a + k) := by
  have hcases : k = 0 ∨ k = 1 ∨ k = 2 ∨ k = 3 := by omega
  rcases hcases with rfl | rfl | rfl | rfl <;> rfl

theorem getD_colorBytes_palRead (sb : Memory) (ps : Slot) (k : Nat) (hk : k < 4) :
    (colorBytes (palRead sb ps)).getD k 0 = sb.read (16420 + 4 * ps.val + k) := by
  rw [palRead_eq, getD_colorBytes_read sb _ k hk]

theorem getD_colorBytes_pixelColor (ri : Memory) (i : PixelIx) (k : Nat) (hk : k < 4) :
    (colorBytes (pixelColor ri i)).getD k 0 = ri.read (4 * i.val + k) :=
  getD_colorBytes_read ri _ k hk

/-! ## The raster EXTRACT leaves (R155, R156) -/

/-- ExtractPixel reads the palette entry of the pixel's physical slot (R136, R153). -/
theorem extractPixel_eq (P : Config.Perms) (sb : Memory) (i : PixelIx) :
    extractPixel P sb i = palRead sb (usedSlot P sb i) := rfl

/-- The raster bytes of a pixel are those of the palette entry it selects. -/
theorem read_extracted (P : Config.Perms) (sb : Memory) (i : PixelIx) (k : Nat) (hk : k < 4) :
    (Memory.ofBytes (extractBytes P sb)).read (4 * i.val + k) = sb.read (16420 + 4 * (usedSlot P sb i).val + k) := by
  rw [← getD_colorBytes_pixelColor _ i k hk, pixelColor_extracted, extractPixel_eq, getD_colorBytes_palRead sb _ k hk]

/-- Settles O17: FormatCheck, then MagicCheck, and past both the raster of `extractBytes`. -/
theorem extractChecksThenReplacesTheRaster : Obligations.ExtractChecksThenReplacesTheRaster := by
  refine ⟨decode_append _ 0 0, decode_error_of_operand_ne_zero (by decide), fun s =>
    ⟨fun hlen => ?formatError, fun hlen hm => ?headerMismatch, fun hlen hm =>
      ⟨.ofBytes (extractBytes Config.perms s.sb), ?success, Memory.wf_ofBytes _, ?within,
        read_extracted Config.perms s.sb⟩⟩⟩
  case formatError => exact (extractWith_formatError Config.perms s hlen).trans (s.next_raise_scalar_eq (by decide))
  case headerMismatch =>
    exact (extractWith_headerMismatch Config.perms s hlen hm).trans (s.next_raise_scalar_eq (by decide))
  case success => exact (extractWith_ok Config.perms s hlen hm).trans (by rw [extracted_eq])
  case within => exact length_extractBytes Config.perms s.sb ▸ Memory.within_ofBytes _

theorem word_emblemDim : emblemDim.word = 0x00800080#32 := by decide

/-- The raster reads back as the bytes EXTRACT computed (R158, R242). -/
theorem extracted_riBytes (P : Config.Perms) (s : State) : (extracted P s).riBytes = extractBytes P s.sb := by
  have hread := Memory.readRange_ofBytes (extractBytes P s.sb)
  rwa [length_extractBytes, ← bytes_emblemDim] at hread

/-- Settles O18: a successful EXTRACT leaves `extracted`, whose raster is the computed bytes. -/
theorem extractAlwaysGives65536Bytes : Obligations.ExtractAlwaysGives65536Bytes := by
  intro s hlen hm
  refine ⟨_, extractWith_ok Config.perms s hlen hm, word_emblemDim, rfl, ?length, ?bytes⟩
  case length => rw [extracted_riBytes, length_extractBytes]
  case bytes => rw [extracted_riBytes, extracted_ri]

/-! ## What EXTRACT's raster depends on (R159) -/

/-- A pixel's color depends on its index byte and on the entry that byte selects. -/
theorem extractPixel_congr {P : Config.Perms} {m n : Memory} {i : PixelIx}
    (hindex : m.read (indexOffset P i) = n.read (indexOffset P i))
    (hentry : ∀ k, k < 4 →
      m.read (16420 + 4 * (usedSlot P m i).val + k) = n.read (16420 + 4 * (usedSlot P m i).val + k)) :
    extractPixel P m i = extractPixel P n i := by
  have hslot : usedSlot P n i = usedSlot P m i := by rw [usedSlot, usedSlot, hindex]
  have h0 := hentry 0 (by omega)
  rw [Nat.add_zero] at h0
  rw [extractPixel_eq, extractPixel_eq, hslot, palRead_eq, palRead_eq, h0, hentry 1 (by omega), hentry 2 (by omega),
    hentry 3 (by omega)]

theorem extractBytes_congr {P : Config.Perms} {m n : Memory} (h : ∀ i, extractPixel P m i = extractPixel P n i) :
    extractBytes P m = extractBytes P n := by
  rw [extractBytes, extractBytes, funext h]

/-- Every pixel of an extracted raster has the color of one of the 256 palette entries. -/
theorem distinctColors_extracted_le (P : Config.Perms) (sb : Memory) :
    distinctColors (.ofBytes (extractBytes P sb)) ≤ 256 := by
  have hsub : (rasterColors (.ofBytes (extractBytes P sb))).toFinset ⊆ Finset.univ.image (palRead sb) := by
    intro c hc
    rw [List.mem_toFinset, rasterColors, List.mem_map] at hc
    obtain ⟨i, -, rfl⟩ := hc
    rw [pixelColor_extracted, extractPixel_eq]
    exact Finset.mem_image_of_mem _ (Finset.mem_univ _)
  calc distinctColors (.ofBytes (extractBytes P sb))
      ≤ (Finset.univ.image (palRead sb)).card := Finset.card_le_card hsub
    _ ≤ (Finset.univ : Finset Slot).card := Finset.card_image_le
    _ = 256 := Finset.card_fin 256

theorem State.raise_scalar_code_ne_zero (s : State) {e : StatusCode} (he : e ≠ .ok) :
    (s.raise scalarDests e).status.code ≠ 0 := by
  rw [State.raise_scalar_eq s he]
  exact StatusCode.num_ne_zero e he

/-- An EXTRACT that ends with CODE 0 is a successful one (R157, R210). -/
theorem extractWith_of_code_zero {P : Config.Perms} {s t : State} (h : extractWith P s = .next t)
    (hcode : t.status.code = 0) : t = extracted P s := by
  rcases extractWith_cases P s with hend | hend | ⟨-, hend⟩ <;> obtain rfl := Host.Outcome.next.inj (h.symm.trans hend)
  · exact absurd hcode (State.raise_scalar_code_ne_zero s (by decide))
  · exact absurd hcode (State.raise_scalar_code_ne_zero s (by decide))
  · rfl

/-- Settles O19: every pixel's color is computed from its index byte and the entry it selects. -/
theorem extractDependsOnlyOnIndexAndUsedEntries : Obligations.ExtractDependsOnlyOnIndexAndUsedEntries := by
  intro s t s' t' hs ht hs0 ht0 hindex hentry
  have hbytes : extractBytes Config.perms s.sb = extractBytes Config.perms t.sb := extractBytes_congr fun i =>
    extractPixel_congr (hindex _ (Nat.le_add_right 36 _) (Nat.add_lt_add_left (Config.pixelPerm i).isLt 36)) (hentry i)
  obtain rfl : s' = extracted Config.perms s := extractWith_of_code_zero hs hs0
  obtain rfl : t' = extracted Config.perms t := extractWith_of_code_zero ht ht0
  rw [extracted_ri, extracted_ri, hbytes]
  exact ⟨rfl, distinctColors_extracted_le Config.perms t.sb⟩

/-! ## The bytes INJECT leaves (R177, R178, R181, R182) -/

theorem slotOfPos_of_val_eq {p : Slot} {n : Nat} (h : p.val = n) : slotOfPos n = p :=
  Fin.ext (by rw [slotOfPos_val n (h ▸ p.isLt), h])

/-- The palette entry of a pixel's palette position holds the pixel's four bytes. -/
theorem read_injected_palettePos (P : Config.Perms) (s : State) (h : distinctColors s.ri ≤ 256) (i : PixelIx) (k : Nat)
    (hk : k < 4) : (injectedSb P s).read (16420 + 4 * palettePos s.ri i + k) = s.ri.read (4 * i.val + k) := by
  rw [← usedSlot_injected P s h i, ← getD_colorBytes_palRead _ _ k hk, ← extractPixel_eq, extractPixel_injected P s h i,
    getD_colorBytes_pixelColor _ i k hk]

/-- Settles O20: INJECT leaves `injectedSb`, whose bytes are the staged ones inside the blocks and the old ones outside. -/
theorem injectWritesIndexAndPaletteBlocks : Obligations.InjectWritesIndexAndPaletteBlocks := by
  refine ⟨decode_append _ 0 0, decode_error_of_operand_ne_zero (by decide), fun s hready => ?_⟩
  have ⟨_, _, _, hcolors⟩ := hready
  refine ⟨injectedSb Config.perms s, _, toNat_ofNat_of_lt (by omega), ?success, fun i => ⟨?position, fun p hp => ?index⟩,
    read_injected_palettePos Config.perms s hcolors, read_injected_kept Config.perms s hcolors, fun a ha => ?outside⟩
  case success => exact (injectWith_ok Config.perms s hready).trans (by rw [injected_eq])
  case position => exact Nat.lt_of_lt_of_le (palettePos_lt s.ri i) hcolors
  case index =>
    have hread := read_injected_index Config.perms s hcolors i
    rwa [slotOfPos_of_val_eq hp] at hread
  case outside => exact read_injectedSb_outside Config.perms s a (by omega)

/-- Settles O21: the four failed checks in their order, and the success when none fails. -/
theorem injectFailsInOrderAndChangesNothing : Obligations.InjectFailsInOrderAndChangesNothing := by
  refine fun s => ⟨fun hsize => ?sizeError, fun hsize hlen => ?formatError, fun hsize hlen hm => ?headerMismatch,
    fun hsize hlen hm hcolors => ?capacityExceeded,
    fun hready => ⟨_, injectWith_ok Config.perms s hready, injected_code Config.perms s⟩⟩
  case sizeError => exact (injectWith_sizeError Config.perms s hsize).trans (s.next_raise_scalar_eq (by decide))
  case formatError =>
    exact (injectWith_formatError Config.perms s hsize hlen).trans (s.next_raise_scalar_eq (by decide))
  case headerMismatch =>
    exact (injectWith_headerMismatch Config.perms s hsize hlen hm).trans (s.next_raise_scalar_eq (by decide))
  case capacityExceeded =>
    exact (injectWith_capacityExceeded Config.perms s hsize hlen hm hcolors).trans (s.next_raise_scalar_eq (by decide))

/-- A buffer that agrees with an injected one on the index block and the used entries extracts to the same bytes: an
injected buffer uses no other entry. -/
theorem extractBytes_injected_congr (P : Config.Perms) (s : State) (h : distinctColors s.ri ≤ 256) (m : Memory)
    (hm : ∀ a, a < 16420 + 4 * distinctColors s.ri → m.read a = (injectedSb P s).read a) :
    extractBytes P m = extractBytes P (injectedSb P s) := by
  refine extractBytes_congr fun i => (extractPixel_congr ?index fun k hk => ?entry).symm
  case index =>
    have hi := (P.pixel i).isLt
    have hlow : indexOffset P i < 16420 := Nat.add_lt_add_left hi 36
    exact (hm _ (by omega)).symm
  case entry =>
    have hp := palettePos_lt s.ri i
    rw [usedSlot_injected P s h i]
    exact (hm _ (by omega)).symm

/-- Settles O22: each pixel uses the slot of its palette position, which is below the number of distinct colors. -/
theorem unusedPaletteEntriesAreUnobservable : Obligations.UnusedPaletteEntriesAreUnobservable := by
  intro P s hready
  have ⟨_, _, _, hcolors⟩ := hready
  refine ⟨_, injectWith_ok P s hready, fun i => ?_, read_injected_kept P s hcolors,
    extractBytes_injected_congr P s hcolors⟩
  rw [injected_sb, usedSlot_injected P s hcolors]
  exact palettePos_lt s.ri i

/-! ## The round trip (R183) -/

/-- INJECT keeps the header, so it keeps what EXTRACT checks (R150, R152, R181). -/
theorem ExtractReady.of_injectReady {P : Config.Perms} {s : State} (h : InjectReady s) : ExtractReady (injected P s) := by
  obtain ⟨-, hlen, hm, -⟩ := h
  refine ⟨hlen, fun henforced k => ?_⟩
  rw [injected_sb, read_injectedSb_outside P s _ (by omega)]
  exact hm henforced k

theorem EmblemRaster.riDim_eq {s : State} (h : EmblemRaster s) : s.riDim = emblemDim := by
  obtain ⟨hw, hh⟩ := h
  calc s.riDim = ⟨s.riDim.w, s.riDim.h⟩ := rfl
    _ = emblemDim := by rw [hw, hh]; rfl

/-- EXTRACT of an injected buffer gives each pixel of the injected raster back. -/
theorem pixelColor_extractBytes_injected (P : Config.Perms) (s : State) (h : distinctColors s.ri ≤ 256) (i : PixelIx) :
    pixelColor (.ofBytes (extractBytes P (injectedSb P s))) i = pixelColor s.ri i := by
  rw [pixelColor_extracted, extractPixel_injected P s h i]

theorem injectWith_then_extractWith (P : Config.Perms) (s : State) (h : InjectReady s) :
    ∃ t u, injectWith P s = .next t ∧ t.status.code = 0 ∧ extractWith P t = .next u ∧ u.status.code = 0 ∧
      u.riDim = s.riDim ∧ SameRaster u.ri s.ri := by
  have ⟨hsize, _, _, hcolors⟩ := h
  obtain ⟨hlen, hm⟩ := ExtractReady.of_injectReady (P := P) h
  refine ⟨_, _, injectWith_ok P s h, injected_code P s, extractWith_ok P _ hlen hm, extracted_code P _, ?_,
    sameRaster_of_pixelColor _ _ (pixelColor_extractBytes_injected P s hcolors)⟩
  exact hsize.riDim_eq.symm

/-- Settles O23: the block's own commands are those for its two permutations. -/
theorem injectThenExtractGivesTheRasterBack : Obligations.InjectThenExtractGivesTheRasterBack :=
  ⟨injectWith_then_extractWith, injectWith_then_extractWith Config.perms⟩

/-! ## Canonical save buffers (R185) -/

/-- A raster extracted from an injected buffer has the palette positions of the injected raster, and each pixel uses the
slot of its position. -/
theorem canonical_injectedSb (P : Config.Perms) (s : State) (h : distinctColors s.ri ≤ 256) :
    Canonical P (injectedSb P s) := fun i =>
  (usedSlot_injected P s h i).trans (palettePos_congr _ _ (pixelColor_extractBytes_injected P s h) i).symm

/-- Settles O25: INJECT leaves `injectedSb`, which is canonical. -/
theorem injectedBuffersAreCanonical : Obligations.InjectedBuffersAreCanonical := by
  intro P s hready
  have ⟨_, _, _, hcolors⟩ := hready
  exact ⟨_, injectWith_ok P s hready, canonical_injectedSb P s hcolors⟩

/-! ## Slots in order of first use (R185 (c)) -/

/-- The values of `q` along the pixels are 0, 1, 2, ... in order of first use: each is one an earlier pixel has, or the
number of distinct values before it. -/
def InFirstUseOrder (q : PixelIx → Nat) : Prop :=
  ∀ i : PixelIx, (∃ j, j < i ∧ q j = q i) ∨ q i = ((Finset.univ.filter fun j : PixelIx => j < i).image q).card

theorem slotsInOrderOfFirstUse_iff (P : Config.Perms) (sb : Memory) :
    SlotsInOrderOfFirstUse P sb ↔ InFirstUseOrder (fun i => (usedSlot P sb i).val) ∧
      ∀ i j, extractPixel P sb i = extractPixel P sb j → usedSlot P sb i = usedSlot P sb j := by
  have hcard : ∀ pixels : Finset PixelIx,
      (pixels.image fun i => (usedSlot P sb i).val).card = (pixels.image (usedSlot P sb)).card := fun pixels => by
    rw [← Finset.card_image_of_injective (pixels.image (usedSlot P sb)) Fin.val_injective, Finset.image_image]
    rfl
  simp only [SlotsInOrderOfFirstUse, InFirstUseOrder, hcard, Fin.val_inj]

/-- Values in order of first use are determined by which pixels share one. -/
theorem InFirstUseOrder.unique {p q : PixelIx → Nat} (hp : InFirstUseOrder p) (hq : InFirstUseOrder q)
    (hshare : ∀ i j, p i = p j ↔ q i = q j) (i : PixelIx) : p i = q i := by
  induction i using WellFoundedLT.induction with
  | ind i ih =>
    by_cases hold : ∃ j, j < i ∧ q j = q i
    · obtain ⟨j, hj, hji⟩ := hold
      calc p i = p j := ((hshare j i).2 hji).symm
        _ = q j := ih j hj
        _ = q i := hji
    · have hnew : ¬ ∃ j, j < i ∧ p j = p i := fun ⟨j, hj, hji⟩ => hold ⟨j, hj, (hshare j i).1 hji⟩
      rw [(hp i).resolve_left hnew, (hq i).resolve_left hold]
      exact congrArg Finset.card (Finset.image_congr fun j hj => ih j (Finset.mem_filter.1 hj).2)

/-! ## First-seen positions are in order of first use (R173) -/

theorem firstSeenFrom_append_right (seen cs ds : List Color) :
    firstSeenFrom seen (cs ++ ds) = firstSeenFrom (firstSeenFrom seen cs) ds := by
  induction cs generalizing seen with
  | nil => rfl
  | cons c cs ih =>
    by_cases hc : c ∈ seen
    · simp only [List.cons_append, firstSeenFrom, if_pos hc, ih]
    · simp only [List.cons_append, firstSeenFrom, if_neg hc, ih]

theorem length_firstSeenFrom_nil (cs : List Color) : (firstSeenFrom [] cs).length = cs.toFinset.card := by
  have hset : (firstSeenFrom [] cs).toFinset = cs.toFinset := by
    ext c
    simp [mem_firstSeenFrom]
  rw [← hset, List.toFinset_card_of_nodup (nodup_firstSeenFrom [] cs List.nodup_nil)]

/-- A color that does not occur in the colors before it is first seen in the place of their number. -/
theorem idxOf_firstSeenFrom_of_notMem {c : Color} {cs : List Color} (ds : List Color) (hc : c ∉ cs) :
    (firstSeenFrom [] (cs ++ c :: ds)).idxOf c = cs.toFinset.card := by
  have hnew : c ∉ firstSeenFrom [] cs := by simpa [mem_firstSeenFrom] using hc
  obtain ⟨more, hmore⟩ := firstSeenFrom_append (firstSeenFrom [] cs ++ [c]) ds
  rw [firstSeenFrom_append_right, firstSeenFrom, if_neg hnew, hmore, List.append_assoc, List.idxOf_append_of_notMem hnew,
    length_firstSeenFrom_nil]
  simp

theorem palettePos_eq_iff (ri : Memory) (i j : PixelIx) :
    palettePos ri i = palettePos ri j ↔ pixelColor ri i = pixelColor ri j :=
  List.idxOf_inj (pixelColor_mem_firstSeen ri i)

/-- Pixels have as many palette positions as colors. -/
theorem card_image_palettePos (ri : Memory) (pixels : Finset PixelIx) :
    (pixels.image (palettePos ri)).card = (pixels.image (pixelColor ri)).card := by
  have hinj : Set.InjOn (fun c => (firstSeen ri).idxOf c) (pixels.image (pixelColor ri)) := by
    intro c hc d hd hcd
    obtain ⟨i, -, rfl⟩ := Finset.mem_image.1 hc
    exact (List.idxOf_inj (pixelColor_mem_firstSeen ri i)).1 hcd
  rw [← Finset.card_image_of_injOn hinj, Finset.image_image]
  rfl

theorem mem_take_allPixels (i j : PixelIx) : j ∈ allPixels.take i.val ↔ j < i := by
  have hj : j.val < allPixels.length := by rw [length_allPixels]; exact j.isLt
  rw [List.mem_take_iff_getElem]
  constructor
  · rintro ⟨k, hk, rfl⟩
    rw [getElem_allPixels]
    exact Nat.lt_of_lt_of_le hk (Nat.min_le_left _ _)
  · exact fun hlt => ⟨j.val, Nat.lt_min.2 ⟨hlt, hj⟩, getElem_allPixels j.val hj⟩

/-- The raster's colors, cut at a pixel. -/
theorem rasterColors_eq_at (ri : Memory) (i : PixelIx) :
    rasterColors ri = (allPixels.take i.val).map (pixelColor ri) ++
      pixelColor ri i :: (allPixels.drop (i.val + 1)).map (pixelColor ri) := by
  have hi : i.val < allPixels.length := by rw [length_allPixels]; exact i.isLt
  have hcut : allPixels = allPixels.take i.val ++ i :: allPixels.drop (i.val + 1) := by
    conv_lhs => rw [← List.take_append_drop i.val allPixels, List.drop_eq_getElem_cons hi, getElem_allPixels]
  conv_lhs => rw [rasterColors, hcut, List.map_append, List.map_cons]

/-- The palette positions are in order of first use, since P grows by one with each color not yet seen (R173). -/
theorem inFirstUseOrder_palettePos (ri : Memory) : InFirstUseOrder (palettePos ri) := by
  intro i
  by_cases hold : ∃ j, j < i ∧ palettePos ri j = palettePos ri i
  · exact .inl hold
  · right
    have hnew : pixelColor ri i ∉ (allPixels.take i.val).map (pixelColor ri) := fun hmem => by
      obtain ⟨j, hj, hcolor⟩ := List.mem_map.1 hmem
      exact hold ⟨j, (mem_take_allPixels i j).1 hj, (palettePos_eq_iff ri j i).2 hcolor⟩
    have hearlier : ((allPixels.take i.val).map (pixelColor ri)).toFinset
        = (Finset.univ.filter fun j => j < i).image (pixelColor ri) := by
      ext c
      simp only [List.mem_toFinset, List.mem_map, mem_take_allPixels, Finset.mem_image, Finset.mem_filter,
        Finset.mem_univ, true_and]
    rw [card_image_palettePos, ← hearlier, palettePos, firstSeen, rasterColors_eq_at ri i,
      idxOf_firstSeenFrom_of_notMem _ hnew]

/-- Settles O26: the used slots and the palette positions of the extracted raster are shared by the same pixels, and the
positions are in order of first use. -/
theorem canonicalMeansSlotsInOrderOfFirstUse : Obligations.CanonicalMeansSlotsInOrderOfFirstUse := by
  intro P sb
  have hcolor : ∀ i j, palettePos (.ofBytes (extractBytes P sb)) i = palettePos (.ofBytes (extractBytes P sb)) j ↔
      extractPixel P sb i = extractPixel P sb j := fun i j => by
    rw [palettePos_eq_iff, pixelColor_extracted, pixelColor_extracted]
  have hpos := inFirstUseOrder_palettePos (.ofBytes (extractBytes P sb))
  rw [slotsInOrderOfFirstUse_iff]
  constructor
  · intro hcanon
    refine ⟨(funext hcanon : (fun i => (usedSlot P sb i).val) = _) ▸ hpos, fun i j hij => Fin.ext ?_⟩
    rw [hcanon i, hcanon j]
    exact (hcolor i j).2 hij
  · rintro ⟨horder, hdistinct⟩
    refine horder.unique hpos fun i j => ?_
    rw [hcolor, Fin.val_inj]
    exact ⟨fun hslot => congrArg (palRead sb) hslot, hdistinct i j⟩

/-! ## A no-op edit (R185) -/

/-- A raster EXTRACT leaves can always be injected into the buffer it came from (R185 (a)). -/
theorem InjectReady.of_extractReady {P : Config.Perms} {s : State} (h : ExtractReady s) : InjectReady (extracted P s) := by
  obtain ⟨hlen, hm⟩ := h
  exact ⟨⟨rfl, rfl⟩, hlen, hm, distinctColors_extracted_le P s.sb⟩

/-- Equal blocks use equal slots. -/
theorem SameBlocks.usedSlot_eq {m n : Memory} (h : SameBlocks m n) (P : Config.Perms) (i : PixelIx) :
    usedSlot P m i = usedSlot P n i := by
  have hi := (P.pixel i).isLt
  have hindex : m.read (indexOffset P i) = n.read (indexOffset P i) :=
    h _ (Nat.le_add_right 36 _) (Nat.lt_trans (Nat.add_lt_add_left hi 36) (by decide))
  rw [usedSlot, usedSlot, hindex]

/-- The index block holds one byte per pixel: PixelPerm is onto (R53, R100). -/
theorem exists_pixel_of_index_offset (P : Config.Perms) (a : Nat) (ha : 36 ≤ a) (ha' : a < 16420) :
    ∃ i : PixelIx, a = 36 + (P.pixel i).val :=
  ⟨P.pixel.symm ⟨a - 36, by omega⟩, by rw [Equiv.apply_symm_apply]; exact (Nat.add_sub_cancel' ha).symm⟩

/-- Every place of the palette list is the palette position of some pixel. -/
theorem exists_palettePos_eq (ri : Memory) (p : Nat) (hp : p < distinctColors ri) : ∃ i, palettePos ri i = p := by
  rw [← length_firstSeen] at hp
  obtain ⟨i, -, hi⟩ := List.mem_map.1 ((mem_firstSeen ri _).1 (List.getElem_mem hp))
  exact ⟨i, by rw [palettePos, hi, (nodup_firstSeen ri).idxOf_getElem]⟩

/-- Every offset from 36 on is the index byte of a pixel, a byte of an entry in use, or past the entries in use. -/
theorem block_offset_cases (P : Config.Perms) (ri : Memory) (a : Nat) (ha : 36 ≤ a) :
    (∃ i : PixelIx, a = 36 + (P.pixel i).val) ∨
    (∃ (i : PixelIx) (k : Nat), k < 4 ∧ a = 16420 + 4 * palettePos ri i + k) ∨ 16420 + 4 * distinctColors ri ≤ a := by
  by_cases hindex : a < 16420
  · exact .inl (exists_pixel_of_index_offset P a ha hindex)
  · by_cases hused : a < 16420 + 4 * distinctColors ri
    · obtain ⟨i, hi⟩ := exists_palettePos_eq ri ((a - 16420) / 4) (by omega)
      exact .inr (.inl ⟨i, (a - 16420) % 4, by omega, by omega⟩)
    · exact .inr (.inr (by omega))

/-- Injecting the extracted raster writes a canonical buffer's own bytes: each pixel's index byte and each used entry. -/
theorem sameBlocks_of_canonical (P : Config.Perms) (s : State) (h : Canonical P s.sb) :
    SameBlocks (injectedSb P (extracted P s)) s.sb := by
  have hcolors : distinctColors (extracted P s).ri ≤ 256 := distinctColors_extracted_le P s.sb
  intro a ha ha'
  rcases block_offset_cases P (extracted P s).ri a ha with ⟨i, rfl⟩ | ⟨i, k, hk, rfl⟩ | hkept
  · rw [read_injected_index P _ hcolors, extracted_ri, slotOfPos_of_val_eq (h i), usedSlot, Equiv.symm_apply_apply,
      byteOfSlot_slotOfByte]
    rfl
  · rw [read_injected_palettePos P _ hcolors i k hk, extracted_ri, read_extracted P s.sb i k hk, h i]
  · exact read_injected_kept P _ hcolors a hkept ha'

/-- R185 (c): the edit keeps the blocks exactly when each pixel already uses the slot INJECT gives it. -/
theorem sameBlocks_iff_canonical (P : Config.Perms) (s : State) :
    SameBlocks (injectedSb P (extracted P s)) s.sb ↔ Canonical P s.sb := by
  refine ⟨fun h i => ?_, sameBlocks_of_canonical P s⟩
  rw [← h.usedSlot_eq P i]
  exact usedSlot_injected P (extracted P s) (distinctColors_extracted_le P s.sb) i

/-- Settles O24: the round trip of the extracted raster, with the blocks it leaves. -/
theorem noOpEditKeepsBlocksExactlyWhenCanonical : Obligations.NoOpEditKeepsBlocksExactlyWhenCanonical := by
  intro P s hready
  have hinject : InjectReady (extracted P s) := .of_extractReady hready
  obtain ⟨hlen, hm⟩ := hready
  obtain ⟨u, v, hu, hu0, hv, hv0, -, hraster⟩ := injectWith_then_extractWith P _ hinject
  obtain rfl := Host.Outcome.next.inj (hu.symm.trans (injectWith_ok P _ hinject))
  exact ⟨_, _, v, extractWith_ok P s hlen hm, hu, hv, extracted_code P s, hu0, hv0, hraster,
    sameBlocks_iff_canonical P s⟩

/-! ## The all-black raster (R186) -/

section OneColor

variable {ri : Memory} {c : Color}

theorem distinctColors_of_oneColor (h : ∀ i, pixelColor ri i = c) : distinctColors ri = 1 := by
  have hset : (rasterColors ri).toFinset = {c} := by
    ext d
    rw [List.mem_toFinset, rasterColors, List.mem_map, Finset.mem_singleton]
    exact ⟨fun ⟨i, _, hi⟩ => hi.symm.trans (h i), fun hd => ⟨0, mem_allPixels 0, (h 0).trans hd.symm⟩⟩
  rw [distinctColors, hset, Finset.card_singleton]

theorem palettePos_of_oneColor (h : ∀ i, pixelColor ri i = c) (i : PixelIx) : palettePos ri i = 0 := by
  rw [← palettePos_zero ri, palettePos_eq_iff, h i, h 0]

end OneColor

theorem byteOfSlot_eq_zero_iff (p : Slot) : byteOfSlot p = 0 ↔ p = 0 := by
  constructor
  · intro h
    rw [← slotOfByte_byteOfSlot p, h]
    rfl
  · rintro rfl
    rfl

/-- The index byte of palette position 0 is zero exactly under SlotZeroFixed (R132, R186). -/
theorem byteOfSlot_symm_zero_iff (P : Config.Perms) : byteOfSlot (P.slot.symm 0) = 0 ↔ P.SlotZeroFixed := by
  rw [byteOfSlot_eq_zero_iff, Equiv.symm_apply_eq, Config.Perms.SlotZeroFixed, eq_comm]

/-- Settles O27: the one color is first seen in place 0, so every pixel uses physical slot 0. -/
theorem allBlackRasterScenario : Obligations.AllBlackRasterScenario := by
  intro P s hsize hlen hm hblack
  have hone : distinctColors s.ri = 1 := distinctColors_of_oneColor hblack
  have hcolors : distinctColors s.ri ≤ 256 := by omega
  have hindex : ∀ i, (injectedSb P s).read (36 + (P.pixel i).val) = byteOfSlot (P.slot.symm 0) := fun i => by
    rw [read_injected_index P s hcolors, palettePos_of_oneColor hblack i]
    rfl
  refine ⟨_, injectWith_ok P s ⟨hsize, hlen, hm, hcolors⟩, injected_code P s, ?res, hindex, ?entry, ?zero⟩
  case res => rw [injected_res, hone]; rfl
  case entry =>
    have hslot : usedSlot P (injectedSb P s) 0 = 0 :=
      Fin.ext ((usedSlot_injected P s hcolors 0).trans (palettePos_zero s.ri))
    rw [injected_sb, ← hblack 0, ← extractPixel_injected P s hcolors 0, extractPixel_eq, hslot]
  case zero =>
    rw [← byteOfSlot_symm_zero_iff, injected_sb]
    constructor
    · intro hzero
      have hi := (P.pixel 0).isLt
      rw [← hindex 0]
      exact hzero _ (by omega) (by omega)
    · intro hzero a ha ha'
      obtain ⟨i, rfl⟩ := exists_pixel_of_index_offset P a ha ha'
      rw [hindex, hzero]

end Sys2Proof.Machine
end

section
/-! PROOFS of the statements about the exceptions (60_exceptions.md): the codes a command ends with (O29), precise errors
(O30), the illegal word (O38), and the host's program (O47). -/

namespace Sys2Proof.Machine

/-! ## Every command ends with a code its row lists (R209) -/

/-- Every row of R209's table lists success. -/
theorem zero_mem_possibleCodes (i : Instr) : 0 ∈ possibleCodes i := by
  cases i <;> simp [possibleCodes]

/-- Settles O29: a raised error is one its row lists, and every other end is a success. -/
theorem everyCommandEndsWithAListedCode : Obligations.EveryCommandEndsWithAListedCode := by
  intro i s
  have hzero := zero_mem_possibleCodes i
  rcases exec_cases i s with ⟨e, -, -, -, he, h⟩ | ⟨v, -, -, -, h⟩ | ⟨w, -, h⟩ | ⟨-, -, h⟩ | ⟨-, -, h⟩
  · exact ⟨_, h, he⟩
  · exact ⟨_, h, by rwa [State.setRes_succeed_code]⟩
  · exact ⟨_, h, by simpa using hzero⟩
  · exact ⟨_, h, by rwa [extracted_code]⟩
  · exact ⟨_, h, by rwa [injected_code]⟩

/-! ## Errors are precise (R210) -/

/-- The one way in which a command ends with a nonzero code: it raised an error, and RES is its one destination. -/
theorem exec_raised_of_code_ne_zero (i : Instr) (s t : State) (h : exec i s = .next t) (hcode : t.status.code ≠ 0) :
    ∃ e, e ≠ .ok ∧ destsOf i = [.res] ∧ t = s.raise scalarDests e := by
  rcases exec_next i s t h with ⟨e, hok, -, hd, ht⟩ | ⟨v, -, rfl⟩ | ⟨w, -, rfl⟩ | ⟨-, -, rfl⟩ | ⟨-, -, rfl⟩
  · exact ⟨e, hok, hd, ht⟩
  · exact absurd (State.setRes_succeed_code s v) hcode
  · exact absurd (by simp) hcode
  · exact absurd (extracted_code Config.perms s) hcode
  · exact absurd (injected_code Config.perms s) hcode

/-- Settles O30: the state of a raised error, with RES the only register the command names. -/
theorem errorsArePrecise : Obligations.ErrorsArePrecise := by
  intro i s t h hcode
  obtain ⟨e, hok, hd, rfl⟩ := exec_raised_of_code_ne_zero i s t h hcode
  simp [State.raise_scalar_eq s hok, hd]

/-! ## The illegal word (R86, R208) -/

theorem launch_error (s : State) (e : DecodeError) (h : decode s.command = .error e) : launch s = .next s.illegal := by
  simp only [launch, h]

/-- An illegal word leaves the state as it was, but for STATUS (R208). -/
theorem State.illegal_eq (s : State) : s.illegal = { s with status := ⟨7, true⟩ } :=
  congrArg (fun st => { s with status := st }) (Status.record_error s.status .illegalCommand (by decide))

/-- Settles O38: the write stores CMD_HI, and the launch then finds an illegal word in the two registers. -/
theorem illegalWordOnlyRecordsIllegalCommand : Obligations.IllegalWordOnlyRecordsIllegalCommand := by
  intro s v rest e hp hdecode
  calc step s
    _ = launch { s.takeAction rest with cmdHi := v } := step_wr s .cmdHi v rest hp
    _ = .next (State.illegal { s.takeAction rest with cmdHi := v }) := launch_error _ e hdecode
    _ = _ := by rw [State.illegal_eq]; rfl

/-! ## The host's program (R222, R232, R245) -/

theorem step_of_program_ended (s : State) (hp : s.pending = []) : step s = .next s := by
  simp only [step, hostStep, hp]

/-- No launch touches the host's program or its index (R245). -/
theorem launch_keeps_program (s t : State) (h : launch s = .next t) :
    t.pending = s.pending ∧ t.hostIndex = s.hostIndex := by
  rcases launch_next s t h with ⟨i, he⟩ | rfl
  · obtain ⟨-, -, -, -, hpending, hindex, -⟩ := commandsWriteOnlyTheirOwnState i s t he
    exact ⟨hpending, hindex⟩
  · exact ⟨rfl, rfl⟩

/-- An action other than STOP_IF_ERROR moves the host index by one and leaves the rest of the program (R245; log 9). -/
theorem step_takes_one_action (s t : State) (a : HostAction) (rest : List HostAction) (hp : s.pending = a :: rest)
    (ha : a ≠ .stopIfError) (h : step s = .next t) : t.pending = rest ∧ t.hostIndex = s.hostIndex + 1 := by
  rcases step_cases s t h with ⟨hp', -⟩ | ⟨rest', hp', rfl⟩ | ⟨v, rest', hp', hl⟩ | ⟨r, v, rest', hp', -, -, x, c, rfl⟩ |
    ⟨action, rest', reply, hp', -, -, rfl⟩ | ⟨bytes, rest', hp', -, rfl⟩ | ⟨w, hh, bytes, rest', hp', -, -, -, rfl⟩ |
    ⟨rest', hp', -⟩ <;> rw [hp] at hp' <;> cases hp'
  case inr.inr.inl => exact launch_keeps_program _ t hl
  case inr.inr.inr.inr.inr.inr.inr => exact absurd rfl ha
  all_goals exact ⟨rfl, rfl⟩

/-- STOP_IF_ERROR keeps the rest of the program exactly when CODE is 0 (R245; log 8). -/
theorem State.stopIfError_eq (s : State) :
    s.stopIfError = { s with pending := if s.status.code = 0 then s.pending else [] } := by
  rcases stopIfError_cases s with ⟨hcode, hs⟩ | ⟨hcode, hs⟩
  · rw [hs, if_pos hcode]
  · rw [hs, if_neg hcode]

/-- A step at STOP_IF_ERROR moves past it and performs it (R245; log 8). -/
theorem step_stopIfError (s : State) (rest : List HostAction) (hp : s.pending = .stopIfError :: rest) :
    step s = .next { s.takeAction rest with pending := if s.status.code = 0 then rest else [] } := by
  rw [step_cons s _ rest hp, perform, State.stopIfError_eq]
  rfl

/-- Settles O47: STOP_IF_ERROR by its own rule, and every other action by the one they share. -/
theorem programStepsByTheHostIndex : Obligations.ProgramStepsByTheHostIndex := by
  refine ⟨step_of_program_ended, fun s t a rest hp h => ?_⟩
  by_cases ha : a = .stopIfError
  · subst ha
    obtain rfl := Host.Outcome.next.inj (h.symm.trans (step_stopIfError s rest hp))
    exact ⟨rfl, fun hne => absurd rfl hne, fun _ => rfl⟩
  · obtain ⟨hrest, hindex⟩ := step_takes_one_action s t a rest hp ha h
    exact ⟨hindex, fun _ => hrest, fun hstop => absurd hstop ha⟩

end Sys2Proof.Machine
end

section
/-! PROOFS of the statements about reset and the host's actions on the buffers (70_reset_and_hazards.md): attaching and
reading back (O44), what reset leaves (O49, O52, O54), and the host action RESET (O50). -/

namespace Sys2Proof.Machine

/-! ## The bytes of an attached buffer (R240, R242) -/

/-- A buffer made of these bytes reads each of them at its offset. -/
theorem Memory.read_ofBytes_of_lt (bytes : List Byte) (k : Nat) (h : k < bytes.length) :
    (Memory.ofBytes bytes).read k = bytes[k] := by
  rw [Memory.read_ofBytes, if_pos h, List.getD_eq_getElem bytes 0 h]

theorem State.length_sbBytes (s : State) : s.sbBytes.length = s.sbLen.toNat := Memory.length_readRange ..

theorem State.length_riBytes (s : State) : s.riBytes.length = s.riDim.bytes := Memory.length_readRange ..

theorem State.getElem_sbBytes (s : State) (k : Nat) (h : k < s.sbBytes.length) : s.sbBytes[k] = s.sb.read k :=
  (Memory.getElem_readRange s.sb 0 _ k h).trans (by rw [Nat.zero_add])

theorem State.getElem_riBytes (s : State) (k : Nat) (h : k < s.riBytes.length) : s.riBytes[k] = s.ri.read k :=
  (Memory.getElem_readRange s.ri 0 _ k h).trans (by rw [Nat.zero_add])

/-- The save buffer's bytes are those it was made of, once SB_LEN is their number (R34). -/
theorem State.sbBytes_eq_of_attached {s : State} {bytes : List Byte} (hsb : s.sb = .ofBytes bytes)
    (hlen : s.sbLen.toNat = bytes.length) : s.sbBytes = bytes := by
  rw [State.sbBytes, hsb, hlen, Memory.readRange_ofBytes]

/-- The raster's bytes are those it was made of, once RI_DIM gives their number (R35). -/
theorem State.riBytes_eq_of_attached {s : State} {bytes : List Byte} (hri : s.ri = .ofBytes bytes)
    (hlen : bytes.length = s.riDim.w.toNat * s.riDim.h.toNat * 4) : s.riBytes = bytes := by
  rw [State.riBytes, hri, RasterDim.bytes, ← hlen, Memory.readRange_ofBytes]

/-! ## The four buffer actions of the host, as one step each (R240) -/

theorem step_attachSb (s : State) (bytes : List Byte) (rest : List HostAction) (hlen : bytes.length < 2 ^ 32)
    (hp : s.pending = .attachSb bytes :: rest) :
    step s = .next { s.takeAction rest with sb := .ofBytes bytes, sbLen := BitVec.ofNat 32 bytes.length } := by
  rw [step_cons s _ rest hp, perform, attachSbAction, if_pos hlen]

/-- Dimensions given as 16-bit words meet the bound of R241, and are what RI_DIM then holds. -/
theorem step_attachRi (s : State) (w h : BitVec 16) (bytes : List Byte) (rest : List HostAction)
    (hlen : bytes.length = w.toNat * h.toNat * 4) (hp : s.pending = .attachRi w.toNat h.toNat bytes :: rest) :
    step s = .next { s.takeAction rest with ri := .ofBytes bytes, riDim := ⟨w, h⟩ } := by
  rw [step_cons s _ rest hp, perform, attachRiAction, if_pos ⟨w.isLt, h.isLt, hlen⟩]
  simp only [BitVec.ofNat_toNat, BitVec.setWidth_eq]

theorem step_readSb (s : State) (rest : List HostAction) (hp : s.pending = .readSb :: rest) :
    step s = .next { s.takeAction rest with reply := some (.saveBuffer s.sbBytes) } :=
  step_cons s _ rest hp

theorem step_readRi (s : State) (rest : List HostAction) (hp : s.pending = .readRi :: rest) :
    step s = .next { s.takeAction rest with reply := some (.raster s.riDim s.riBytes) } :=
  step_cons s _ rest hp

/-- A run of two steps ends where the second step does. -/
theorem run_two_of_steps {s t u : State} (hfirst : step s = .next t) (hsecond : step t = .next u) :
    core.run 2 s = .next u :=
  (run_succ_of_step core 1 hfirst).trans ((run_one core t).trans hsecond)

/-- ATTACH_SB, then READ_SB: the reply is the bytes attached (R242). -/
theorem run_attachSb_readSb (s : State) (bytes : List Byte) (rest : List HostAction) (hlen : bytes.length < 2 ^ 32)
    (hp : s.pending = .attachSb bytes :: .readSb :: rest) :
    core.run 2 s = .next { s with
      sb := .ofBytes bytes, sbLen := BitVec.ofNat 32 bytes.length, pending := rest, hostIndex := s.hostIndex + 2,
      reply := some (.saveBuffer bytes) } := by
  have hattach := step_attachSb s bytes _ hlen hp
  have hread := step_readSb { s.takeAction (.readSb :: rest) with
    sb := .ofBytes bytes, sbLen := BitVec.ofNat 32 bytes.length } rest rfl
  rw [State.sbBytes_eq_of_attached rfl (toNat_ofNat_of_lt hlen)] at hread
  exact run_two_of_steps hattach hread

/-- ATTACH_RI, then READ_RI: the reply is the dimensions and bytes attached (R242). -/
theorem run_attachRi_readRi (s : State) (w h : BitVec 16) (bytes : List Byte) (rest : List HostAction)
    (hlen : bytes.length = w.toNat * h.toNat * 4)
    (hp : s.pending = .attachRi w.toNat h.toNat bytes :: .readRi :: rest) :
    core.run 2 s = .next { s with
      ri := .ofBytes bytes, riDim := ⟨w, h⟩, pending := rest, hostIndex := s.hostIndex + 2,
      reply := some (.raster ⟨w, h⟩ bytes) } := by
  have hattach := step_attachRi s w h bytes _ hlen hp
  have hread := step_readRi { s.takeAction (.readRi :: rest) with ri := .ofBytes bytes, riDim := ⟨w, h⟩ } rest rfl
  rw [State.riBytes_eq_of_attached rfl hlen] at hread
  exact run_two_of_steps hattach hread

/-- Settles O44: each of the four actions by its step, and each attach with its read by the run of the two. -/
theorem attachedBuffersReadBack : Obligations.AttachedBuffersReadBack := by
  refine ⟨?attachSb, ?attachRi, ?readSb, ?readRi, ?saveBuffer, ?raster⟩
  case attachSb =>
    intro s bytes rest hlen hp
    exact ⟨.ofBytes bytes, _, toNat_ofNat_of_lt hlen, Memory.wf_ofBytes bytes, Memory.within_ofBytes bytes,
      Memory.read_ofBytes_of_lt bytes, step_attachSb s bytes rest hlen hp⟩
  case attachRi =>
    intro s w h bytes rest hlen hp
    exact ⟨.ofBytes bytes, Memory.wf_ofBytes bytes, Memory.within_ofBytes bytes, Memory.read_ofBytes_of_lt bytes,
      step_attachRi s w h bytes rest hlen hp⟩
  case readSb => exact fun s rest hp => ⟨s.sbBytes, s.length_sbBytes, s.getElem_sbBytes, step_readSb s rest hp⟩
  case readRi => exact fun s rest hp => ⟨s.riBytes, s.length_riBytes, s.getElem_riBytes, step_readRi s rest hp⟩
  case saveBuffer =>
    intro s bytes rest hlen hp
    exact ⟨_, run_attachSb_readSb s bytes rest hlen hp, rfl, toNat_ofNat_of_lt hlen, rfl, rfl, rfl⟩
  case raster =>
    intro s w h bytes rest hlen hp
    exact ⟨_, run_attachRi_readRi s w h bytes rest hlen hp, rfl, rfl, rfl, rfl, rfl⟩

/-! ## What reset leaves (R230) -/

/-- No save buffer is attached at reset: SB_LEN is 0. -/
theorem reset_sbBytes : State.reset.sbBytes = [] := List.eq_nil_of_length_eq_zero State.reset.length_sbBytes

/-- No raster is attached at reset: RI_DIM is 0 by 0. -/
theorem reset_riBytes : State.reset.riBytes = [] := List.eq_nil_of_length_eq_zero State.reset.length_riBytes

/-- Settles O49: each register by its reset value, and each buffer by its length register. -/
theorem resetLeavesTheRuledValues : Obligations.ResetLeavesTheRuledValues := by
  have hstatus : State.reset.status.word = 0 := by decide
  have hdim : State.reset.riDim.word = 0 := by decide
  exact ⟨rfl, rfl, hstatus, rfl, rfl, rfl, rfl, rfl, rfl, rfl, reset_sbBytes, hdim, reset_riBytes⟩

/-- Settles O52: both buffers are empty. -/
theorem resetBufferListsAreSortedNonzeroAndInside : Obligations.ResetBufferListsAreSortedNonzeroAndInside :=
  ⟨Memory.wf_empty, Memory.within_empty _, Memory.wf_empty, Memory.within_empty _⟩

/-- Settles O54: CODE is 0, which a success records and which asks nothing of STICKY. -/
theorem resetStatusIsLegal : Obligations.ResetStatusIsLegal :=
  ⟨num_mem_producedCodes .ok StatusCode.noConfusion, fun hcode => absurd rfl hcode⟩

/-! ## The host action RESET (R231 to R233) -/

theorem step_reset (s : State) (rest : List HostAction) (hp : s.pending = .reset :: rest) :
    step s = .next { State.reset with pending := rest, hostIndex := s.hostIndex + 1, reply := none } :=
  step_cons s _ rest hp

/-- EXTRACT without a save buffer attached fails with FormatError (R157, R231). -/
theorem exec_extract_of_no_saveBuffer (s : State) (h : s.sbLen = 0) :
    exec .extract s = .next { s with res := none, status := ⟨1, true⟩ } := by
  have hlen : ¬ ValidLength s := by rw [ValidLength, h]; decide
  exact (extractWith_formatError Config.perms s hlen).trans (s.next_raise_scalar_eq (by decide))

/-- INJECT without a raster attached fails with SizeError, whatever save buffer is attached (R170, R231). -/
theorem exec_inject_of_no_raster (s : State) (h : s.riDim = ⟨0, 0⟩) :
    exec .inject s = .next { s with res := none, status := ⟨5, true⟩ } := by
  have hsize : ¬ EmblemRaster s := by rw [EmblemRaster, h]; decide
  exact (injectWith_sizeError Config.perms s hsize).trans (s.next_raise_scalar_eq (by decide))

/-- Settles O50: RESET answers the reset values, of which SB_LEN, RI_DIM and RES decide how the two commands end. -/
theorem resetActionDetachesAndLaunchesNothing : Obligations.ResetActionDetachesAndLaunchesNothing := fun s rest hp =>
  ⟨_, step_reset s rest hp, rfl, exec_extract_of_no_saveBuffer _ rfl, exec_inject_of_no_raster _ rfl⟩

end Sys2Proof.Machine
end

section
/-! PROOFS of the statement about written-out words of the decode table (95_test_vectors.md section 3.1): one word of each
command decodes to it (O5). -/

namespace Sys2Proof

/-- Settles O5: each word listed is the one the encoder writes for its command, and the decoder reads such words back. -/
theorem sampleWordsDecodeAsTheSpecListsThem : Obligations.SampleWordsDecodeAsTheSpecListsThem := by
  unfold Obligations.SampleWordsDecodeAsTheSpecListsThem
  simp only [decode_eq_ok_iff]
  exact ⟨rfl, rfl, rfl, rfl, rfl, rfl, rfl, rfl⟩

end Sys2Proof
end
